-- ==== Sys2Proof/Word.lean ====
section
/-! DEFINITION. The value types of spec/00_scope.md R8 and R9: bytes, byte strings and the 16-bit Register Address. -/

namespace Sys2Proof

/-- A byte: an unsigned 8-bit value (R8). -/
abbrev Byte := BitVec 8

/-- A byte string: a finite sequence of bytes, indexed from 0 (R8). -/
abbrev Bytes := List Byte

/-- A Register Address: a 16-bit unsigned value (R14, R22). -/
abbrev Addr := BitVec 16

end Sys2Proof
end

