-- ==== Sys2Proof/Machine/Constants.lean ====
section
/-! DEFINITION. The hardwired constants of spec/00_scope.md R6 and the bus clock figure of
spec/70_reset_and_hazards.md R171. -/

namespace Sys2Proof.Machine

/-- R6 `HEADER_LEN`, in bytes. -/
@[simp] abbrev headerLen : Nat := 3
/-- R6 `TRANSACTION_LIMIT`, in bytes. -/
@[simp] abbrev transactionLimit : Nat := 4096
/-- R6 `CHUNK_FRAME_LEN`, in bytes. -/
@[simp] abbrev chunkFrameLen : Nat := 4003
/-- R6 `CHUNK_PAYLOAD_LEN` = `CHUNK_FRAME_LEN - HEADER_LEN`, in bytes. -/
@[simp] abbrev chunkPayloadLen : Nat := 4000
/-- R6 `ADDR_STRIDE`, in cells. -/
@[simp] abbrev addrStride : Nat := 1000
/-- R6 `CELL_SIZE`, in bytes per cell. -/
@[simp] abbrev cellSize : Nat := 4
/-- R6 `ADDR_WIDTH`, in bits. -/
@[simp] abbrev addrWidth : Nat := 16
/-- The number of Register Addresses, 2 to the power `ADDR_WIDTH` (R40). -/
@[simp] abbrev addressCount : Nat := 65536
/-- R6 `OPC_WRITE`. -/
@[simp] abbrev opcWrite : Byte := 0x00#8
/-- R6 `OPC_READ`. -/
@[simp] abbrev opcRead : Byte := 0x01#8
/-- R6 `FILLER`. -/
@[simp] abbrev filler : Byte := 0x00#8
/-- R6 `BITS_PER_WORD`. -/
@[simp] abbrev bitsPerWord : Nat := 8
/-- R6 `SPI_MAX_HZ`. -/
@[simp] abbrev spiMaxHz : Nat := 1000000
/-- R6 `SPI_MODE`. -/
@[simp] abbrev spiMode : Nat := 0

/-- R171: the least bus time of a transfer of `n` bytes at `SPI_MAX_HZ` with `BITS_PER_WORD`-bit words, in microseconds.
No rule and no step depends on it. -/
def leastTransferMicros (n : Nat) : Nat := n * bitsPerWord * 1000000 / spiMaxHz

end Sys2Proof.Machine
end

