-- ==== Sys2Proof/Machine/Compose.lean ====
section
/-! DEFINITION. The frame composer (spec/40_frame_composer.md R80), the header fields it lays out
(spec/30_encoding.md R62, R63, R68) and the reading of those fields back from a frame. -/

namespace Sys2Proof.Machine

/-- R9 `hi8(a) = (a >> 8) & 0xFF`. -/
def hi8 (a : Addr) : Byte := ((a >>> 8) &&& 0xFF#16).setWidth 8

/-- R9 `lo8(a) = a & 0xFF`. -/
def lo8 (a : Addr) : Byte := (a &&& 0xFF#16).setWidth 8

/-- R8 `zeros(n)`: the filler payload of a READ frame (R65, R91). -/
def zeros (n : Nat) : Bytes := List.replicate n filler

/-- R80 `Compose(opc, a, p) = [opc, hi8(a), lo8(a)] ++ p`. -/
def compose (opc : Byte) (a : Addr) (p : Bytes) : Bytes := [opc, hi8 a, lo8 a] ++ p

/-- The opcode byte of a frame (R62, offset 0). -/
def frameOpcode (f : Bytes) : Byte := f.getD 0 0

/-- The header address of a frame, `frame[1] * 256 + frame[2]` (R63, R83). -/
def frameAddr (f : Bytes) : Nat := (f.getD 1 0).toNat * 256 + (f.getD 2 0).toNat

/-- The payload of a frame, `frame[3:]` (R62). -/
def framePayload (f : Bytes) : Bytes := f.drop headerLen

/-- R63: the header read as one 24-bit big-endian word. -/
def headerWord (f : Bytes) : Nat :=
  (f.getD 0 0).toNat * 65536 + (f.getD 1 0).toNat * 256 + (f.getD 2 0).toNat

end Sys2Proof.Machine
end

