-- ==== Sys2Proof/Syntax.lean ====
section
/-! DEFINITION. The two commands of the command port (spec/30_encoding.md R60), one constructor per row of
spec/opcode_table.json. -/

namespace Sys2Proof

/-- A command of the block (R3, R60).  The address and the READ length are unbounded integers, the form R131 calls
"a model whose inputs are unbounded integers", so that the input checks of phase CHECK are part of the meaning; a command
of the typed 16-bit port is one that `Instr.wf` accepts. -/
inductive Instr where
  /-- `WRITE ADDR, DATA` with its debug bit (R100). -/
  | write (addr : Int) (data : Bytes) (dbg : Bool)
  /-- `READ ADDR, LEN` with its debug bit (R90). -/
  | read (addr : Int) (len : Int) (dbg : Bool)
  deriving DecidableEq, Repr, Inhabited

/-- The operation of a context, R21's field OP (one bit: 0 = WRITE, 1 = READ). -/
inductive Op where
  | write
  | read
  deriving DecidableEq, Repr

/-- The same command with its debug bit cleared: what a request frame carries of it (R60, R62). -/
def Instr.quiet : Instr → Instr
  | .write a d _ => .write a d false
  | .read a n _ => .read a n false

/-- The debug bit of a command (R60). -/
def Instr.dbg : Instr → Bool
  | .write _ _ g => g
  | .read _ _ g => g

end Sys2Proof
end

