-- ==== Sys2Proof/WellFormed.lean ====
section
/-! DEFINITION. Which commands fit the typed fields of the command port (spec/30_encoding.md R60): a 16-bit address and,
for a READ, a natural length.  A WRITE payload is a byte string of any length. -/

namespace Sys2Proof

/-- The address fits the port's 16-bit field: 0..65535 (R60, R131). -/
def addressInRange (a : Int) : Bool := decide (0 ≤ a) && decide (a ≤ 65535)

/-- The command fits the fields of R60.  A command that does not fit still has a meaning: R131's checks. -/
def Instr.wf : Instr → Bool
  | .write a _ _ => addressInRange a
  | .read a n _ => addressInRange a && decide (0 ≤ n)

end Sys2Proof
end

