-- ==== Sys2Proof/Decode.lean ====
section
/-! DEFINITION. Decoding a request frame (spec/30_encoding.md R69, R70), the command a frame stands for, and the frame of a
command (R62, R91, R102). -/

namespace Sys2Proof

open Sys2Proof.Machine

/-- What a bus-side observer reads from a byte string (R69). -/
inductive FrameView where
  | notAFrame
  | writeFrame (addr : Nat) (payload : Bytes)
  | readFrame (addr : Nat) (len : Nat)
  | reservedOpcode (opc : Byte)
  deriving DecidableEq, Repr

/-- R69 `decode(f)`, total on any bytes. -/
def viewFrame (f : Bytes) : FrameView :=
  if f.length < headerLen then .notAFrame
  else if frameOpcode f = opcWrite then .writeFrame (frameAddr f) (framePayload f)
  else if frameOpcode f = opcRead then .readFrame (frameAddr f) (framePayload f).length
  else .reservedOpcode (frameOpcode f)

/-- Why a byte string is no request frame of the block (R70, spec/93_implementation_defined.md U18: the block never emits
it and the model gives it no meaning). -/
inductive DecodeError where
  /-- Shorter than the 3-byte header.  Safe: no command is made of it. -/
  | notAFrame
  /-- An opcode byte 0x02..0xFF.  Safe: no command is made of it. -/
  | reservedOpcode (opc : Byte)
  /-- A READ frame whose payload is not all filler zeros.  Safe: no command is made of it. -/
  | fillerNotZero
  deriving DecidableEq, Repr

/-- The command whose request frame `f` is, with the port's default DEBUG = 0 (R60), or the reason there is none. -/
def decode (f : Bytes) : Except DecodeError Instr :=
  match viewFrame f with
  | .notAFrame => .error .notAFrame
  | .reservedOpcode opc => .error (.reservedOpcode opc)
  | .writeFrame a p => .ok (.write a p false)
  | .readFrame a n => if framePayload f = zeros n then .ok (.read a n false) else .error .fillerNotZero

/-- The request frame of a command: R91's for a READ, R102's first frame for a WRITE. -/
def encode : Instr → Bytes
  | .write a d _ => compose opcWrite (BitVec.ofInt addrWidth a) d
  | .read a n _ => compose opcRead (BitVec.ofInt addrWidth a) (zeros n.toNat)

/-- Byte `j` (bits `8j+7 .. 8j`) of a number. -/
def byteOf (w j : Nat) : Byte := BitVec.ofNat 8 (w / 2 ^ (8 * j))

/-- The frame whose bits are `w` as spec/opcode_table.json numbers them: the header is one 24-bit word with
`header[23:16]` = frame byte 0 (R63), and payload byte `j` is bits `24+8j+7 .. 24+8j`. -/
def tableWordBytes (nbits w : Nat) : Bytes :=
  [byteOf w 2, byteOf w 1, byteOf w 0] ++ (List.range ((nbits - 24) / 8)).map fun j => byteOf w (3 + j)

/-- The command this decoder reads from an instruction whose bits are `w`. -/
def decodeTableWord (nbits w : Nat) : Option Instr :=
  match decode (tableWordBytes nbits w) with
  | .ok i => some i
  | .error _ => none

end Sys2Proof
end

