-- ==== Sys2Proof/Config.lean ====
section
/-! DEFINITION. What the spec leaves to the implementation or the environment: the OPEN constants of
spec/00_scope.md R7 and the free values of spec/40_frame_composer.md R84 and R85.  None of the opaque constants has a
body, so every statement about them holds whatever they are. -/

namespace Sys2Proof

/-- What the bus handle makes of one transfer (R83, R84): a failure, or a response of any bytes and any length. -/
inductive BusOutcome where
  | fail
  | response (resp : Bytes)
  deriving DecidableEq, Repr

/-- Whose turn is next: one move of the block's surroundings or of one of its sequencers (R13, R50, R85).  Which turn
comes when is free. -/
inductive Turn where
  /-- A caller offers a command at the command port, where it waits (R60). -/
  | offer (i : Instr)
  /-- The port's waiting command number `slot` is taken; if it is accepted its context gets an ID made from `tag`
  and goes through up to `burst` sequencer phases before anything else moves. -/
  | accept (slot tag burst : Nat)
  /-- Live context number `slot` goes through up to `burst` sequencer phases. -/
  | run (slot burst : Nat)
  /-- The block is reset (R160). -/
  | reset
  deriving DecidableEq, Repr, Inhabited

/-- R7 `BUS_ID`: OPEN, no value given (D10). -/
opaque Config.busId : Nat

/-- R7 `DEVICE_ID`: OPEN, no value given (D10). -/
opaque Config.deviceId : Nat

/-- The free order of R50 and R85: the turn drawn when the state's agenda lists none.  Assumption log 3. -/
opaque Config.freeTurn : Nat → Turn

/-- The free bus of R84: what an outstanding transfer's poll finds when the state's answers list none; `none` is "not
answered yet" (a bus that never answers always gives it).  Assumption log 2. -/
opaque Config.freeOutcome : Nat → Option BusOutcome

/-- Whether a call of `open` or of a configuration setter succeeds (R162) when the state's setter answers list none.
Assumption log 2. -/
opaque Config.freeSetterOk : Nat → Bool

end Sys2Proof
end

