-- ==== Sys2Proof/Machine/State.lean ====
section
/-! DEFINITION. The state of the block as plain data (spec/10_state.md), the surroundings' inputs it reads, the reference
chip view of spec/20_memory.md R41, the reasons a step can stop, and the state after reset. -/

namespace Sys2Proof.Machine

/-- R24: where a context's sequencer stands. -/
inductive Phase where
  | check
  | compose
  | decide
  | xferRead
  | xferFull
  | advance
  | xferFinal
  | done
  deriving DecidableEq, Repr

/-- R26 `BUS`.  `closed` is CLOSED, `opened` is OPEN, `initFailed` is INIT_FAILED. -/
inductive Bus where
  | closed
  | opened
  | initFailed
  deriving DecidableEq, Repr

/-- R26: the bus configuration, which exists with `BUS = OPEN`. -/
structure BusConfig where
  bitsPerWord : Nat
  maxSpeedHz : Nat
  mode : Nat
  deriving DecidableEq, Repr

/-- R162: which call of the initialisation sequence comes next. -/
inductive InitStep where
  | openHandle
  | setBits
  | setSpeed
  | setMode
  deriving DecidableEq, Repr

/-- R150: the configuration setters of the bus handle. -/
inductive Setter where
  | bitsPerWord
  | maxSpeedHz
  | mode
  deriving DecidableEq, Repr

/-- R150: a call the block makes of the bus handle during initialisation. -/
inductive HandleCall where
  | openHandle (busId deviceId : Nat)
  | set (setter : Setter) (value : Nat)
  deriving DecidableEq, Repr

/-- R7 `ADDR_OVERFLOW_POLICY`. -/
inductive OverflowPolicy where
  | fault
  | wrap
  deriving DecidableEq, Repr

/-- R7 `READ_OVERSIZE_POLICY`. -/
inductive OversizePolicy where
  | fault
  | pass
  deriving DecidableEq, Repr

/-- The parameters of R7, "which the model takes as arguments": no step writes them, and a statement over all states is a
statement over all their values.  `none` for a bound is unbounded.  Assumption log 1. -/
structure Params where
  busId : Nat
  deviceId : Nat
  addrOverflow : OverflowPolicy
  readOversize : OversizePolicy
  maxContexts : Option Nat
  maxWriteLen : Option Nat
  deriving DecidableEq, Repr

/-- An error with its INFO record (R130, R133). -/
inductive OpError where
  /-- `BusInitError`, with no context ID (R136). -/
  | busInit
  /-- `BusTransferError`: ID, XFER, and RESP_LEN or NONE. -/
  | busTransfer (id xfer : Nat) (respLen : Option Nat)
  /-- `InvalidAddress`: ID and the address value. -/
  | invalidAddress (id : Nat) (addr : Int)
  /-- `InvalidLength`: ID and the length value. -/
  | invalidLength (id : Nat) (len : Int)
  /-- `OversizeRead`: ID and LEN. -/
  | oversizeRead (id : Nat) (len : Int)
  /-- `AddressOverflow`: ID, XFER (the transfers completed) and ADDR (the last full chunk's header address). -/
  | addressOverflow (id xfer : Nat) (addr : Addr)
  deriving DecidableEq, Repr

/-- A message of the result port (R61). -/
inductive Result where
  | okRead (data : Bytes)
  | okWrite (data : Bytes)
  | err (e : OpError)
  deriving DecidableEq, Repr

/-- An entry of the event history (R30).  A result's ID is absent for `BusInitError` alone (R136). -/
inductive Event where
  /-- `Issue(ID, CHUNK, frame)` of R83. -/
  | issue (id chunk : Nat) (frame : Bytes)
  /-- `Outcome(ID, outcome)` of R83. -/
  | outcome (id : Nat) (o : BusOutcome)
  /-- `Diag(ID, OP, XFER, ADDR, FRAME_LEN, PAYLOAD_LEN)` of R155. -/
  | diag (id : Nat) (op : Op) (xfer addr frameLen payloadLen : Nat)
  /-- A message of the result port (R61). -/
  | result (id : Option Nat) (r : Result)
  deriving DecidableEq, Repr

/-- An operation context (R21).  `len`, `data` and `frame` are absent where R31 gives the field no value: LEN of a WRITE,
DATA of a READ, FRAME before the composer has written it.  `reqAddr` is the command's address as the caller gave it, which
R131 checks; `addr` is the 16-bit register ADDR (R22). -/
structure Context where
  id : Nat
  op : Op
  reqAddr : Int
  addr : Addr
  len : Option Int
  data : Option Bytes
  frame : Option Bytes
  chunk : Nat
  dbg : Bool
  phase : Phase
  deriving DecidableEq, Repr

/-- A context field that R31 may give no value. -/
inductive CtxField where
  | len
  | data
  | frame
  deriving DecidableEq, Repr

/-- The reference chip view (R41) as a list of known bytes: byte `j` of cell `a` is at `4 a + j`, keys strictly rising, none
above the last cell.  A byte not listed is unknown. -/
abbrev Memory := List Host.Cell

/-- What the turn being played gives the command it takes: the material of its ID and how many sequencer phases it may go
through before anything else moves.  Assumption log 3. -/
structure Grant where
  tag : Nat
  burst : Nat
  deriving DecidableEq, Repr

/-- The whole machine. -/
structure State where
  /-- R7: the parameters the model takes as arguments. -/
  params : Params
  /-- R26: the global bus state. -/
  bus : Bus
  /-- R26: the bus configuration CFG. -/
  cfg : Option BusConfig
  /-- R162: the next call of the initialisation sequence. -/
  init : InitStep
  /-- R20, R21: the live operation contexts, oldest first. -/
  contexts : List Context
  /-- R30: the event history, oldest first. -/
  history : List Event
  /-- R150, R162: the initialisation calls made of the bus handle, oldest first. -/
  calls : List HandleCall
  /-- R60: the commands waiting at the command port. -/
  port : List Instr
  /-- R41: the reference chip view.  No step of the block reads it. -/
  chip : Memory
  /-- The surroundings' turns still to come; after them `Config.freeTurn`. -/
  agenda : List Turn
  /-- What the bus handle's next polls find; after them `Config.freeOutcome`. -/
  answers : List (Option BusOutcome)
  /-- Whether the next initialisation calls succeed; after them `Config.freeSetterOk`. -/
  setterAnswers : List Bool
  /-- The present turn's grant. -/
  grant : Grant
  /-- How many free values have been drawn. -/
  draws : Nat
  deriving DecidableEq, Repr

/-- Why the machine stops with a fault. -/
inductive Fault where
  /-- Raised by the block's own turns in `BUS = INIT_FAILED`: R136 calls that state "a fault state that is never final".
  Safe: no claim about a command holds of such a run.  A caller's command still waits at the port, and a reset still has
  its effect. -/
  | busInitFailed
  /-- Raised by a phase that reads a context field R31 gives no value ("a model that reads one ... must fault").  Safe; no
  state that keeps `State.Inv` reaches it. -/
  | fieldHasNoValue (f : CtxField)
  /-- Raised by a context that stands in a phase R24 does not give its operation.  Safe; no state that keeps `State.Inv`
  reaches it. -/
  | phaseNotOfOperation (p : Phase)
  /-- Raised by a transfer with `BUS` not OPEN, which R83 requires.  Safe; no state that keeps `State.Inv` reaches it. -/
  | transferWithoutBus
  deriving DecidableEq, Repr

/-- What the model gives no meaning. -/
inductive Refusal where
  /-- Raised by no arm any more: an instruction without a meaning.  Safe. -/
  | notModelled (mnemonic : String)
  /-- Raised by a reset while a context is live, which R160 says a model must refuse.  Safe. -/
  | resetWhileLive
  deriving DecidableEq, Repr

/-- The answer of a step. -/
abbrev Answer := Host.Outcome State Fault Refusal

/-- R26: the one configuration the block ever holds. -/
def busSettings : BusConfig := ⟨bitsPerWord, spiMaxHz, spiMode⟩

/-- The parameters at the spec's defaults (R7), with BUS_ID and DEVICE_ID left open. -/
def Params.specDefault : Params :=
  { busId := Config.busId, deviceId := Config.deviceId, addrOverflow := .fault, readOversize := .fault,
    maxContexts := none, maxWriteLen := none }

/-- The machine right after reset (R31, R160): BUS closed, no configuration, no context, an empty history. -/
def State.reset : State :=
  { params := Params.specDefault, bus := .closed, cfg := none, init := .openHandle, contexts := [], history := [],
    calls := [], port := [], chip := [], agenda := [], answers := [], setterAnswers := [], grant := ⟨0, 0⟩, draws := 0 }

end Sys2Proof.Machine
end

