-- ==== Sys2Proof/Machine/Chip.lean ====
section
/-! DEFINITION. The reference chip view of spec/20_memory.md R41: a list of known bytes in canonical form, the chip-side
effect MemWrite of a WRITE frame, and the forgetting of cells a failed transfer may have changed
(spec/70_reset_and_hazards.md R167). -/

namespace Sys2Proof.Machine

/-- How many bytes the register space has: 65536 cells of 4 bytes (R40). -/
@[simp] abbrev chipBytes : Nat := addressCount * cellSize

/-- The first byte address of a cell. -/
def cellBase (a : Addr) : Nat := cellSize * a.toNat

/-- The byte at a byte address, `none` where it is unknown. -/
def memByte (m : Memory) (x : Nat) : Option Byte :=
  match m with
  | [] => none
  | (y, b) :: r => if y = x then some b else memByte r x

/-- Byte `j` of cell `a`, `none` where it is unknown. -/
def cellByte (m : Memory) (a j : Nat) : Option Byte := memByte m (cellSize * a + j)

/-- The canonical form: addresses strictly rising, all inside the register space. -/
def memWf (m : Memory) : Bool :=
  decide (m.Pairwise fun e f => e.1 < f.1) && m.all fun e => decide (e.1 < chipBytes)

/-- The bytes of `p` at consecutive byte addresses from `base` on. -/
def memRun (base : Nat) : Bytes → Memory
  | [] => []
  | b :: r => (base, b) :: memRun (base + 1) r

/-- The listed bytes below an address. -/
def memBelow (m : Memory) (x : Nat) : Memory := m.filter fun e => decide (e.1 < x)

/-- The listed bytes from an address on. -/
def memFrom (m : Memory) (x : Nat) : Memory := m.filter fun e => decide (x ≤ e.1)

/-- Place `p` at consecutive byte addresses from `base` on. -/
def memPut (m : Memory) (base : Nat) (p : Bytes) : Memory :=
  memBelow m base ++ memRun base p ++ memFrom m (base + p.length)

/-- R41 `MemWrite(a, p)`: byte `j` of `p` goes to byte `j mod 4` of cell `a + j div 4`.  A byte past cell 0xFFFF has no
place in the view (N8). -/
def memWrite (m : Memory) (a : Addr) (p : Bytes) : Memory :=
  memPut m (cellBase a) (p.take (chipBytes - cellBase a))

/-- Byte address `x` lies in the cells a payload of `n` bytes targets from cell `a` on, counted mod 2^16 cells. -/
def inTarget (a : Addr) (n x : Nat) : Bool :=
  decide ((x + chipBytes - cellBase a) % chipBytes < cellSize * ((n + 3) / cellSize))

/-- The cells of a failed WRITE transfer and those after it, where the `n` bytes not yet known to be written were to go,
become unknown, whole cells at a time (R134, R167, U7, U8). -/
def memLose (m : Memory) (a : Addr) (n : Nat) : Memory := m.filter fun e => !inTarget a n e.1

end Sys2Proof.Machine
end

