-- ==== Sys2Proof/Machine/Flags.lean ====
section
/-! DEFINITION. Flags.  The block has no status flag and no condition code (spec/10_state.md R27); its one flag is a
command's DEBUG bit, and this file says all it does: the diagnostic events of spec/60_exceptions.md R155. -/

namespace Sys2Proof.Machine

/-- The diagnostic events of the issue of `wire` by context `c`: one when DEBUG is 1, none otherwise (R83, R155). -/
def diagEvents (c : Context) (wire : Bytes) : List Event :=
  if c.dbg then [.diag c.id c.op c.chunk (frameAddr wire) wire.length (wire.length - headerLen)] else []

end Sys2Proof.Machine
end

