-- ==== Sys2Proof/Machine/Operands.lean ====
section
/-! DEFINITION. Operands: the address-stride multiplexer (spec/42_write_splitter.md R105), the carving of the current frame
(R104, R106), the input checks (spec/60_exceptions.md R131) and the fields acceptance writes (spec/10_state.md R21). -/

namespace Sys2Proof.Machine

/-- R105 `StrideNext`: the next header address, or `none` where the `fault` policy raises AddressOverflow. -/
def strideNext (policy : OverflowPolicy) (a : Addr) : Option Addr :=
  if a.toNat + addrStride ≤ 0xFFFF then some (BitVec.ofNat addrWidth (a.toNat + addrStride))
  else
    match policy with
    | .fault => none
    | .wrap => some (BitVec.ofNat addrWidth (a.toNat + addrStride - 0x10000))

/-- R104: the full chunk, the first 4003 bytes of the current frame. -/
def fullChunk (f : Bytes) : Bytes := f.take chunkFrameLen

/-- R106: the remainder, the current frame from byte 4003 on. -/
def remainder (f : Bytes) : Bytes := f.drop chunkFrameLen

/-- R93: the READ frame reaches the limit and the policy does not let it pass. -/
def readTooLong (policy : OversizePolicy) (n : Int) : Bool :=
  match policy with
  | .fault => decide ((transactionLimit : Int) ≤ headerLen + n)
  | .pass => false

/-- R131: the address lies in 0..65535. -/
def addressValid (a : Int) : Bool := decide (0 ≤ a) && decide (a ≤ 65535)

/-- R131 for a READ: the address first, then the length. -/
def readInputError (id : Nat) (a n : Int) : Option OpError :=
  if !addressValid a then some (.invalidAddress id a)
  else if n < 0 then some (.invalidLength id n)
  else none

/-- R131: the payload is longer than a bounded MAX_WRITE_LEN. -/
def writeTooLong (bound : Option Nat) (len : Nat) : Bool :=
  match bound with
  | none => false
  | some m => decide (m < len)

/-- R131 for a WRITE: the address first, then the length against MAX_WRITE_LEN. -/
def writeInputError (p : Params) (id : Nat) (a : Int) (d : Bytes) : Option OpError :=
  if !addressValid a then some (.invalidAddress id a)
  else if writeTooLong p.maxWriteLen d.length then some (.invalidLength id d.length)
  else none

/-- R130: the number of an error, the `CODE` of its `ERR` message (R61). -/
def errorCode : OpError → Nat
  | .busInit => 1
  | .busTransfer _ _ _ => 2
  | .invalidAddress _ _ => 3
  | .invalidLength _ _ => 4
  | .oversizeRead _ _ => 5
  | .addressOverflow _ _ _ => 6

/-- R21: the bit that stands for an operation in the field OP and in a diagnostic event, 0 = WRITE and 1 = READ. -/
def opBit : Op → BitVec 1
  | .write => 0#1
  | .read => 1#1

/-- R21, R31: the context acceptance creates for a command. -/
def newContext (id : Nat) : Instr → Context
  | .write a d g =>
    { id := id, op := .write, reqAddr := a, addr := BitVec.ofInt addrWidth a, len := none, data := some d,
      frame := none, chunk := 0, dbg := g, phase := .check }
  | .read a n g =>
    { id := id, op := .read, reqAddr := a, addr := BitVec.ofInt addrWidth a, len := some n, data := none,
      frame := none, chunk := 0, dbg := g, phase := .check }

end Sys2Proof.Machine
end

