-- ==== Sys2Proof/Machine/Ops.lean ====
section
/-! DEFINITION. The named operations on the machine: the event history, the set of contexts, the ports, the free draws, the
bus transfer primitive (spec/40_frame_composer.md R83), error entry (spec/60_exceptions.md R137), acceptance
(spec/30_encoding.md R60), the sequencer's run of phases, reset and initialisation (spec/70_reset_and_hazards.md R160,
R162). -/

namespace Sys2Proof.Machine

/-! ### The event history and the set of contexts -/

/-- Append events to the history (R30). -/
def State.record (s : State) (es : List Event) : State := { s with history := s.history ++ es }

/-- The live context with an ID. -/
def State.findContext (s : State) (id : Nat) : Option Context := s.contexts.find? fun c => c.id == id

/-- Write a context's fields back (R10): the context of that ID is replaced. -/
def State.putContext (s : State) (c : Context) : State :=
  { s with contexts := s.contexts.map fun d => if d.id = c.id then c else d }

/-- Add a new context, the youngest (R21). -/
def State.addContext (s : State) (c : Context) : State := { s with contexts := s.contexts ++ [c] }

/-- Retire the context with an ID (R21, R24 DONE). -/
def State.retire (s : State) (id : Nat) : State := { s with contexts := s.contexts.filter fun c => c.id != id }

/-- Enter DONE: the result leaves on the result port and the context is retired (R12, R24, R61). -/
def State.finish (s : State) (c : Context) (r : Result) : State := (s.record [.result (some c.id) r]).retire c.id

/-- Error entry (R137): the operation ends with `ERR`, its context is retired, nothing is rolled back and nothing else
changes.  There is no return from it: the block has no handler (R140). -/
def State.raiseError (s : State) (c : Context) (e : OpError) : State := s.finish c (.err e)

/-! ### Fields R31 may give no value -/

/-- Read LEN; a context without it faults (R31, D25). -/
def withLen (c : Context) (k : Int → Answer) : Answer :=
  match c.len with
  | some n => k n
  | none => .fault (.fieldHasNoValue .len)

/-- Read DATA; a context without it faults (R31, D25). -/
def withData (c : Context) (k : Bytes → Answer) : Answer :=
  match c.data with
  | some d => k d
  | none => .fault (.fieldHasNoValue .data)

/-- Read FRAME; a context without it faults (R31, D25). -/
def withFrame (c : Context) (k : Bytes → Answer) : Answer :=
  match c.frame with
  | some f => k f
  | none => .fault (.fieldHasNoValue .frame)

/-! ### The free draws -/

/-- What the next poll of the bus handle finds, `none` while it has not answered (R84). -/
def State.nextOutcome (s : State) : Option BusOutcome :=
  match s.answers with
  | o :: _ => o
  | [] => Config.freeOutcome s.draws

/-- The state after that poll. -/
def State.afterOutcome (s : State) : State :=
  match s.answers with
  | _ :: r => { s with answers := r }
  | [] => { s with draws := s.draws + 1 }

/-- Whose turn is next (R50, R85). -/
def State.nextTurn (s : State) : Turn :=
  match s.agenda with
  | t :: _ => t
  | [] => Config.freeTurn s.draws

/-- The state after that turn is drawn. -/
def State.afterTurn (s : State) : State :=
  match s.agenda with
  | _ :: r => { s with agenda := r }
  | [] => { s with draws := s.draws + 1 }

/-- Whether the next initialisation call succeeds (R162). -/
def State.nextSetterOk (s : State) : Bool :=
  match s.setterAnswers with
  | b :: _ => b
  | [] => Config.freeSetterOk s.draws

/-- The state after that call's answer is drawn. -/
def State.afterSetter (s : State) : State :=
  match s.setterAnswers with
  | _ :: r => { s with setterAnswers := r }
  | [] => { s with draws := s.draws + 1 }

/-! ### The bus transfer primitive, R83 -/

/-- The first half of R83: record the issue of `wire`, count it, emit the diagnostic event, and wait in `phase`. -/
def State.issueTransfer (s : State) (c : Context) (wire : Bytes) (phase : Phase) : Answer :=
  match s.bus with
  | .opened =>
    .next ((s.record (.issue c.id c.chunk wire :: diagEvents c wire)).putContext
      { c with chunk := c.chunk + 1, phase := phase })
  | _ => .fault .transferWithoutBus

/-- The chip-side effect of a completed transfer in the reference view: MemWrite of a WRITE frame (R41); a READ has
none. -/
def State.transferLanded (s : State) (c : Context) (wire : Bytes) : State :=
  match c.op with
  | .write => { s with chip := memWrite s.chip c.addr (framePayload wire) }
  | .read => s

/-- The chip-side effect of a failed transfer: unknown (R134), so the cells of a WRITE's failing transfer and after it, the
target of the current frame `cur`, become unknown (R167, U7). -/
def State.transferLost (s : State) (c : Context) (cur : Bytes) : State :=
  match c.op with
  | .write => { s with chip := memLose s.chip c.addr (framePayload cur).length }
  | .read => s

/-- The second half of R83, once the bus has answered `o`: record the outcome, raise BusTransferError on a failure or a
response of the wrong length, else go on with the response.  `cur` is the current frame, `wire` the part of it sent. -/
def State.answerTransfer (s : State) (c : Context) (cur wire : Bytes) (o : BusOutcome)
    (k : Bytes → State → State) : State :=
  let s' := s.record [.outcome c.id o]
  match o with
  | .fail => (s'.transferLost c cur).raiseError c (.busTransfer c.id (c.chunk - 1) none)
  | .response resp =>
    if resp.length = wire.length then k resp (s'.transferLanded c wire)
    else (s'.transferLost c cur).raiseError c (.busTransfer c.id (c.chunk - 1) (some resp.length))

/-- One poll of the bus for the outstanding transfer of `c`: while it is not answered the context stays where it is
(R83, R84).  DESIGN CHOICE (assumption log 7): until the outcome arrives, and for ever where none does, the reference chip view
of the transfer's target stays as it was before the issue; R41 says nothing of a transfer that is outstanding. -/
def State.pollTransfer (s : State) (c : Context) (cur wire : Bytes) (k : Bytes → State → State) : State :=
  match s.nextOutcome with
  | none => s.afterOutcome
  | some o => s.afterOutcome.answerTransfer c cur wire o k

/-! ### The sequencer and acceptance -/

/-- Up to `n` phases of the context with an ID, by the phase function of its operation; nothing once it is retired. -/
def runPhases (phase : Context → State → Answer) (id : Nat) : Nat → State → Answer
  | 0, s => .next s
  | n + 1, s =>
    match s.findContext id with
    | none => .next s
    | some c =>
      match phase c s with
      | .next s' => runPhases phase id n s'
      | .fault r => .fault r
      | .refused r => .refused r

/-- An ID no live context has: the tag drawn, or, where a live context has it, one above all live IDs (R21: "unique among
live contexts"). -/
def State.freshId (s : State) (tag : Nat) : Nat :=
  if s.contexts.any fun c => c.id == tag then s.contexts.foldr (fun c m => max c.id m) 0 + 1 + tag else tag

/-- Fewer than MAX_CONTEXTS contexts are live (R60). -/
def State.hasRoom (s : State) : Bool :=
  match s.params.maxContexts with
  | none => true
  | some m => decide (s.contexts.length < m)

/-- A command that cannot be accepted waits at the port; it is never dropped (R60). -/
def State.waitAtPort (s : State) (i : Instr) : State := { s with port := s.port ++ [i] }

/-- A caller issues command `i` (R60): with `BUS = OPEN` and room it is accepted, and its new context goes through the
phases the present turn grants it; else it waits at the port, after INIT_FAILED for ever (R163). -/
def State.command (s : State) (i : Instr) (phase : Context → State → Answer) : Answer :=
  match s.bus with
  | .initFailed => .next (s.waitAtPort i)
  | .closed => .next (s.waitAtPort i)
  | .opened =>
    if s.hasRoom then
      runPhases phase (s.freshId s.grant.tag) s.grant.burst (s.addContext (newContext (s.freshId s.grant.tag) i))
    else .next (s.waitAtPort i)

/-! ### Reset and initialisation -/

/-- R160: with no context live the block's state takes its reset values (R31) and the reference view knows nothing; the
parameters, the waiting callers and the surroundings' inputs are not the block's.  With a context live the model refuses. -/
def State.resetBlock (s : State) : Answer :=
  match s.contexts with
  | [] => .next { s with bus := .closed, cfg := none, init := .openHandle, history := [], calls := [], chip := [] }
  | _ :: _ => .refused .resetWhileLive

/-- The call of the bus handle an initialisation step makes (R150, R162). -/
def initCall (p : Params) : InitStep → HandleCall
  | .openHandle => .openHandle p.busId p.deviceId
  | .setBits => .set .bitsPerWord bitsPerWord
  | .setSpeed => .set .maxSpeedHz spiMaxHz
  | .setMode => .set .mode spiMode

/-- What follows a successful call (R162): the next call, or CFG written and `BUS = OPEN`. -/
def State.afterInitOk (s : State) : State :=
  match s.init with
  | .openHandle => { s with init := .setBits }
  | .setBits => { s with init := .setSpeed }
  | .setSpeed => { s with init := .setMode }
  | .setMode => { s with cfg := some busSettings, bus := .opened }

/-- One call of the initialisation sequence (R162).  A failed call ends in INIT_FAILED and reports BusInitError, with no
context ID (R136). -/
def State.initialise (s : State) : State :=
  let s' := { s.afterSetter with calls := s.calls ++ [initCall s.params s.init] }
  if s.nextSetterOk then s'.afterInitOk
  else ({ s' with bus := .initFailed }).record [.result none (.err .busInit)]

end Sys2Proof.Machine
end

