-- ==== Sys2Proof/Machine/Read.lean ====
section
/-! DEFINITION. READ (spec/41_read.md R90 to R96). -/

namespace Sys2Proof.Machine

/-- R90 phase CHECK. -/
def readCheck (c : Context) (s : State) : Answer :=
  withLen c fun n =>
    .next (match readInputError c.id c.reqAddr n with
      | some e => s.raiseError c e
      | none => s.putContext { c with phase := .compose })

/-- R90 phase COMPOSE: the oversize check of R93, then the frame of R91, whose one transfer is issued. -/
def readCompose (c : Context) (s : State) : Answer :=
  withLen c fun n =>
    if readTooLong s.params.readOversize n then .next (s.raiseError c (.oversizeRead c.id n))
    else
      let f := compose opcRead c.addr (zeros n.toNat)
      s.issueTransfer { c with frame := some f } f .xferRead

/-- R90 phase XFER_READ: poll the transfer; its response is stripped of the header (R92). -/
def readTransfer (c : Context) (s : State) : Answer :=
  withFrame c fun f => .next (s.pollTransfer c f f fun resp t => t.finish c (.okRead (resp.drop headerLen)))

/-- One phase of a READ's sequencer (R24, R90). -/
def readPhase (c : Context) (s : State) : Answer :=
  match c.phase with
  | .check => readCheck c s
  | .compose => readCompose c s
  | .xferRead => readTransfer c s
  | .decide => .fault (.phaseNotOfOperation .decide)
  | .xferFull => .fault (.phaseNotOfOperation .xferFull)
  | .advance => .fault (.phaseNotOfOperation .advance)
  | .xferFinal => .fault (.phaseNotOfOperation .xferFinal)
  | .done => .fault (.phaseNotOfOperation .done)

/-- `READ ADDR, LEN` (R90): the command is offered, and once accepted goes through its phases. -/
def execRead (addr len : Int) (dbg : Bool) (s : State) : Answer := s.command (.read addr len dbg) readPhase

end Sys2Proof.Machine
end

