-- ==== Sys2Proof/Machine/Write.lean ====
section
/-! DEFINITION. WRITE, the chunked-transaction splitter and the address-stride multiplexer
(spec/42_write_splitter.md R100 to R115). -/

namespace Sys2Proof.Machine

/-- R100 phase CHECK. -/
def writeCheck (c : Context) (s : State) : Answer :=
  withData c fun d =>
    .next (match writeInputError s.params c.id c.reqAddr d with
      | some e => s.raiseError c e
      | none => s.putContext { c with phase := .compose })

/-- R100 phase COMPOSE: the first frame holds the whole payload (R102). -/
def writeCompose (c : Context) (s : State) : Answer :=
  withData c fun d => .next (s.putContext { c with frame := some (compose opcWrite c.addr d), phase := .decide })

/-- R100 phase DECIDE: a frame below the limit is the final transfer (R103, R107), else its first 4003 bytes are a full
chunk (R104). -/
def writeDecide (c : Context) (s : State) : Answer :=
  withFrame c fun f =>
    if f.length < transactionLimit then s.issueTransfer c f .xferFinal
    else s.issueTransfer c (fullChunk f) .xferFull

/-- R100 phase XFER_FULL: poll the full chunk's transfer; its response is discarded (R109). -/
def writeFull (c : Context) (s : State) : Answer :=
  withFrame c fun f =>
    .next (s.pollTransfer c f (fullChunk f) fun _ t => t.putContext { c with phase := .advance })

/-- R100 phase ADVANCE: the address advances (R105) and the remainder's frame is rebuilt (R106). -/
def writeAdvance (c : Context) (s : State) : Answer :=
  withFrame c fun f =>
    .next (match strideNext s.params.addrOverflow c.addr with
      | none => s.raiseError c (.addressOverflow c.id c.chunk c.addr)
      | some a => s.putContext
          { c with addr := a, frame := some (compose opcWrite a (remainder f)), phase := .decide })

/-- R100 phase XFER_FINAL: poll the final transfer; then the caller's payload is echoed (R108). -/
def writeFinal (c : Context) (s : State) : Answer :=
  withData c fun d => withFrame c fun f => .next (s.pollTransfer c f f fun _ t => t.finish c (.okWrite d))

/-- One phase of a WRITE's sequencer (R24, R101). -/
def writePhase (c : Context) (s : State) : Answer :=
  match c.phase with
  | .check => writeCheck c s
  | .compose => writeCompose c s
  | .decide => writeDecide c s
  | .xferFull => writeFull c s
  | .advance => writeAdvance c s
  | .xferFinal => writeFinal c s
  | .xferRead => .fault (.phaseNotOfOperation .xferRead)
  | .done => .fault (.phaseNotOfOperation .done)

/-- `WRITE ADDR, DATA` (R100): the command is offered, and once accepted goes through its phases. -/
def execWrite (addr : Int) (data : Bytes) (dbg : Bool) (s : State) : Answer :=
  s.command (.write addr data dbg) writePhase

end Sys2Proof.Machine
end

