-- ==== Sys2Proof/Machine/Dispatch.lean ====
section
/-! DEFINITION. The dispatch: one arm per constructor of Instr. -/

namespace Sys2Proof.Machine

def exec (i : Instr) (s : State) : Host.Outcome State Fault Refusal :=
  match i with
  | .write addr data dbg => Sys2Proof.Machine.execWrite addr data dbg s
  | .read addr len dbg => Sys2Proof.Machine.execRead addr len dbg s

end Sys2Proof.Machine
end

