-- ==== Sys2Proof/Machine/Schedule.lean ====
section
/-! DEFINITION. The closed form of a WRITE's transfers (spec/42_write_splitter.md R110) and how many sequencer phases a
command takes when every transfer is answered at the first poll. -/

namespace Sys2Proof.Machine

/-- R110 `K`: how many full chunks a payload of `len` bytes takes. -/
def fullChunks (len : Nat) : Nat := if len ≤ 4092 then 0 else (len - 4092 + 3999) / 4000

/-- R110 `A_k`: the header address of transfer `k`, mod 2^16. -/
def chunkAddr (a : Addr) (k : Nat) : Addr := a + BitVec.ofNat addrWidth (addrStride * k)

/-- R110: the payload of transfer `k`. -/
def chunkPayload (d : Bytes) (k : Nat) : Bytes :=
  if k < fullChunks d.length then (d.drop (chunkPayloadLen * k)).take chunkPayloadLen
  else d.drop (chunkPayloadLen * k)

/-- R110: the frame of transfer `k`. -/
def chunkFrame (a : Addr) (d : Bytes) (k : Nat) : Bytes := compose opcWrite (chunkAddr a k) (chunkPayload d k)

/-- R110: the frames of a WRITE that meets no error, in issue order, `k = 0 .. K`. -/
def writeSchedule (a : Addr) (d : Bytes) : List Bytes :=
  (List.range (fullChunks d.length + 1)).map (chunkFrame a d)

/-- The phases of a READ up to its result: CHECK, COMPOSE, XFER_READ (R90). -/
@[simp] abbrev readPhases : Nat := 3

/-- The phases of a WRITE of `len` bytes up to its result: CHECK, COMPOSE, then DECIDE, XFER_FULL and ADVANCE for each full
chunk, then DECIDE and XFER_FINAL (R101). -/
def writePhases (len : Nat) : Nat := 4 + 3 * fullChunks len

end Sys2Proof.Machine
end

