-- ==== Sys2Proof/Machine/Turns.lean ====
section
/-! DEFINITION. What each turn of the machine does (spec/20_memory.md R50, spec/30_encoding.md R60), and how a command is
placed at the port for the very next step. -/

namespace Sys2Proof.Machine

/-- Take the waiting command number `slot` from the port and issue it with the turn's grant; the port's waiting callers have
no order of their own (R60).  Nothing happens where no command waits there. -/
def State.playAccept (s : State) (slot tag burst : Nat) : Answer :=
  match s.port[slot]? with
  | none => .next s
  | some i => exec i { s with port := s.port.eraseIdx slot, grant := ⟨tag, burst⟩ }

/-- Up to `burst` phases of live context number `slot`, by its operation's phase function (R13). -/
def State.playRun (s : State) (slot burst : Nat) : Answer :=
  match s.contexts[slot]? with
  | none => .next s
  | some c =>
    match c.op with
    | .read => runPhases readPhase c.id burst s
    | .write => runPhases writePhase c.id burst s

/-- A turn with `BUS = OPEN`. -/
def State.playOpen (s : State) : Turn → Answer
  | .offer i => .next (s.waitAtPort i)
  | .accept slot tag burst => s.playAccept slot tag burst
  | .run slot burst => s.playRun slot burst
  | .reset => s.resetBlock

/-- A turn with `BUS = CLOSED`: callers may come and wait, and the block initialises itself (R161, R163). -/
def State.playClosed (s : State) : Turn → Answer
  | .offer i => .next (s.waitAtPort i)
  | .accept _ _ _ => .next s.initialise
  | .run _ _ => .next s.initialise
  | .reset => s.resetBlock

/-- A turn with `BUS = INIT_FAILED`: callers may come and wait for ever (R163), the block is in the fault state of R136 and
only a reset leaves it. -/
def State.playFailed (s : State) : Turn → Answer
  | .offer i => .next (s.waitAtPort i)
  | .accept _ _ _ => .fault .busInitFailed
  | .run _ _ => .fault .busInitFailed
  | .reset => s.resetBlock

/-- One turn of the machine. -/
def State.play (s : State) (t : Turn) : Answer :=
  match s.bus with
  | .closed => s.playClosed t
  | .opened => s.playOpen t
  | .initFailed => s.playFailed t

/-- The phases a command takes up to its result when every transfer is answered at the first poll (R90, R101). -/
def phasesOf : Instr → Nat
  | .write _ d _ => writePhases d.length
  | .read _ _ _ => readPhases

/-- The block initialised (R162), command `i` waiting at the front of the port and taken on the next turn, with a grant for
all its phases. -/
def State.withCommand (s : State) (i : Instr) : State :=
  { s with bus := .opened, cfg := some busSettings, port := i :: s.port,
           agenda := .accept 0 0 (phasesOf i) :: s.agenda }

/-- The command whose request frame is `f`, placed so that the next step runs it; unchanged where `f` is the frame of no
command. -/
def State.withFrameCommand (s : State) (f : Bytes) : State :=
  match decode f with
  | .ok i => s.withCommand i
  | .error _ => s

end Sys2Proof.Machine
end

