-- ==== Sys2Proof/Machine/Step.lean ====
section
/-! DEFINITION. One step of the machine: the next turn is drawn and played. -/

namespace Sys2Proof.Machine

/-- One step: draw whose turn it is (R50, R85) and play it. -/
def step (s : State) : Host.Outcome State Fault Refusal := s.afterTurn.play s.nextTurn

/-- `s` with the instruction whose bits are `w`, numbered as spec/opcode_table.json numbers them, at the command port, so
that the next step runs it (assumption log 4). -/
def State.withFetchWord (s : State) (nbits w : Nat) : State := s.withFrameCommand (tableWordBytes nbits w)

end Sys2Proof.Machine
end

