-- ==== Sys2Proof/Machine/CommandText.lean ====
section
/-! DEFINITION. The textual form of commands (spec/30_encoding.md R72) and its payload shorthands (R73).  A program text is
the caller's sequence of commands (spec/20_memory.md R56); the block itself never reads text. -/

namespace Sys2Proof.Machine

/-- R72 `ramp(L)`: `L` bytes, byte `j` = `j mod 256`. -/
def ramp (n : Nat) : Bytes := (List.range n).map fun j => BitVec.ofNat 8 j

/-- R72 `fill(L, b)`: `L` bytes, each equal to `b`. -/
def fill (n : Nat) (b : Byte) : Bytes := List.replicate n b

/-- A token of a command line. -/
inductive Token where
  | word (w : List Char)
  | num (n : Nat)
  | comma
  | lparen
  | rparen
  | lbrace
  | rbrace
  deriving DecidableEq, Repr

/-- The value of a digit in bases up to 16. -/
def digitValue (c : Char) : Option Nat :=
  if '0' ≤ c ∧ c ≤ '9' then some (c.toNat - 48)
  else if 'a' ≤ c ∧ c ≤ 'f' then some (c.toNat - 87)
  else if 'A' ≤ c ∧ c ≤ 'F' then some (c.toNat - 55)
  else none

/-- Digits of one base, most significant first, after the value `acc`. -/
def digitsValue (base : Nat) : Nat → List Char → Option Nat
  | acc, [] => some acc
  | acc, c :: r =>
    match digitValue c with
    | some v => if v < base then digitsValue base (acc * base + v) r else none
    | none => none

/-- A number: decimal, or hexadecimal after `0x` (R72). -/
def numberValue : List Char → Option Nat
  | [] => none
  | ['0', 'x'] => none
  | '0' :: 'x' :: r => digitsValue 16 0 r
  | r => digitsValue 10 0 r

/-- The token a run of letters and digits is. -/
def wordToken (w : List Char) : Token :=
  match numberValue w with
  | some n => .num n
  | none => .word w

/-- The token of a pending run of characters, if there is one. -/
def flushWord (w : List Char) : List Token := if w = [] then [] else [wordToken w]

/-- The punctuation tokens; braces by their character codes. -/
def punctuation (c : Char) : Option Token :=
  if c = ',' then some .comma
  else if c = '(' then some .lparen
  else if c = ')' then some .rparen
  else if c = Char.ofNat 0x7B then some .lbrace
  else if c = Char.ofNat 0x7D then some .rbrace
  else none

/-- The tokens of a line, `w` being the run of characters read so far; `;` starts a comment (R72). -/
def tokensFrom (w : List Char) : List Char → List Token
  | [] => flushWord w
  | c :: r =>
    if c = ';' then flushWord w
    else if c = ' ' ∨ c = '\t' then flushWord w ++ tokensFrom [] r
    else
      match punctuation c with
      | some t => flushWord w ++ t :: tokensFrom [] r
      | none => tokensFrom (w ++ [c]) r

/-- The bytes after an opening brace, each a number below 256, separated by commas (R72).  DESIGN CHOICE (assumption log 12):
the payloads of spec/95_test_vectors.md in bare hexadecimal without commas are outside this syntax. -/
def parseBytes : List Token → Option Bytes
  | [.num b, .rbrace] => if b < 256 then some [BitVec.ofNat 8 b] else none
  | .num b :: .comma :: r => if b < 256 then (parseBytes r).map (BitVec.ofNat 8 b :: ·) else none
  | _ => none

/-- R72 `<payload>`. -/
def parsePayload : List Token → Option Bytes
  | [.lbrace, .rbrace] => some []
  | .lbrace :: r => parseBytes r
  | [.word ['r', 'a', 'm', 'p'], .lparen, .num n, .rparen] => some (ramp n)
  | [.word ['f', 'i', 'l', 'l'], .lparen, .num n, .comma, .num b, .rparen] =>
    if b < 256 then some (fill n (BitVec.ofNat 8 b)) else none
  | _ => none

/-- The tokens after the word READ or READ.D. -/
def parseRead (dbg : Bool) : List Token → Option Instr
  | [.num a, .comma, .num n] => if a ≤ 65535 then some (.read a n dbg) else none
  | _ => none

/-- The tokens after the word WRITE or WRITE.D. -/
def parseWrite (dbg : Bool) : List Token → Option Instr
  | .num a :: .comma :: p => if a ≤ 65535 then (parsePayload p).map fun d => .write a d dbg else none
  | _ => none

/-- One command line (R72): `some none` for a line without a command, `none` for a line outside the syntax. -/
def parseLine (line : List Char) : Option (Option Instr) :=
  match tokensFrom [] line with
  | [] => some none
  | .word ['R', 'E', 'A', 'D'] :: r => (parseRead false r).map some
  | .word ['R', 'E', 'A', 'D', '.', 'D'] :: r => (parseRead true r).map some
  | .word ['W', 'R', 'I', 'T', 'E'] :: r => (parseWrite false r).map some
  | .word ['W', 'R', 'I', 'T', 'E', '.', 'D'] :: r => (parseWrite true r).map some
  | _ => none

end Sys2Proof.Machine
end

