-- ==== Sys2Proof/Safety.lean ====
section
/-! DEFINITION. What claims about the machine are stated in: the invariant of a run (the state a run can be in), the events
a command leaves in the history, and what an observer reads from the history (spec/10_state.md R30, R32). -/

namespace Sys2Proof.Machine

/-! ### The invariant -/

/-- A bounded MAX_CONTEXTS is positive (R7). -/
def Params.Inv (p : Params) : Prop := ∀ m, p.maxContexts = some m → 0 < m

/-- What R23, R24, R25 and the induction of R110 say of a live READ in each phase; `n` is its LEN. -/
def readPhaseInv (p : Params) (c : Context) (n : Int) : Prop :=
  match c.phase with
  | .check => c.frame = none ∧ c.chunk = 0
  | .compose => c.frame = none ∧ c.chunk = 0 ∧ addressValid c.reqAddr = true ∧ 0 ≤ n
  | .xferRead =>
    c.frame = some (compose opcRead c.addr (zeros n.toNat)) ∧ c.chunk = 1 ∧ addressValid c.reqAddr = true ∧ 0 ≤ n ∧
      readTooLong p.readOversize n = false
  | .decide => False
  | .xferFull => False
  | .advance => False
  | .xferFinal => False
  | .done => False

/-- The context stands at full chunk `k` of payload `d`: its FRAME and ADDR are those of R110's induction. -/
def atChunk (c : Context) (d : Bytes) (k : Nat) : Prop :=
  c.addr = chunkAddr (BitVec.ofInt addrWidth c.reqAddr) k ∧
    c.frame = some (compose opcWrite c.addr (d.drop (chunkPayloadLen * k)))

/-- What R23, R24, R25 and the induction of R110 say of a live WRITE in each phase; `d` is its DATA. -/
def writePhaseInv (p : Params) (c : Context) (d : Bytes) : Prop :=
  match c.phase with
  | .check => c.frame = none ∧ c.chunk = 0
  | .compose => c.frame = none ∧ c.chunk = 0 ∧ writeInputError p c.id c.reqAddr d = none
  | .decide => atChunk c d c.chunk ∧ c.chunk ≤ fullChunks d.length ∧ writeInputError p c.id c.reqAddr d = none
  | .xferFull =>
    ∃ k, c.chunk = k + 1 ∧ atChunk c d k ∧ k < fullChunks d.length ∧ writeInputError p c.id c.reqAddr d = none
  | .advance =>
    ∃ k, c.chunk = k + 1 ∧ atChunk c d k ∧ k < fullChunks d.length ∧ writeInputError p c.id c.reqAddr d = none
  | .xferFinal =>
    c.chunk = fullChunks d.length + 1 ∧ atChunk c d (fullChunks d.length) ∧
      writeInputError p c.id c.reqAddr d = none
  | .xferRead => False
  | .done => False

/-- The fields of a live context fit its operation and its phase (R21 to R25, R31). -/
def Context.Inv (p : Params) (c : Context) : Prop :=
  match c.op with
  | .read =>
    c.data = none ∧ c.addr = BitVec.ofInt addrWidth c.reqAddr ∧ ∃ n, c.len = some n ∧ readPhaseInv p c n
  | .write =>
    c.len = none ∧ (c.chunk = 0 → c.addr = BitVec.ofInt addrWidth c.reqAddr) ∧
      ∃ d, c.data = some d ∧ writePhaseInv p c d

/-- The invariant of a run: the configuration exists exactly with `BUS = OPEN` and holds R26's values; contexts live only
with `BUS = OPEN`, under distinct IDs and within MAX_CONTEXTS; each fits its phase; the reference view keeps its canonical
form. -/
structure State.Inv (s : State) : Prop where
  params : s.params.Inv
  cfg : s.cfg = if s.bus = .opened then some busSettings else none
  live : s.contexts ≠ [] → s.bus = .opened
  ids : (s.contexts.map Context.id).Nodup
  room : ∀ m, s.params.maxContexts = some m → s.contexts.length ≤ m
  contexts : ∀ c ∈ s.contexts, c.Inv s.params
  chip : memWf s.chip = true

/-! ### What an observer reads from the history -/

/-- A diagnostic event (R155). -/
def Event.isDiag : Event → Bool
  | .diag _ _ _ _ _ _ => true
  | .issue _ _ _ => false
  | .outcome _ _ => false
  | .result _ _ => false

/-- The history without the diagnostic port (R156). -/
def withoutDiags (h : List Event) : List Event := h.filter fun e => !e.isDiag

/-- The frame an event puts on the bus port, if it is an issue. -/
def Event.issuedFrame : Event → Option Bytes
  | .issue _ _ f => some f
  | .diag _ _ _ _ _ _ => none
  | .outcome _ _ => none
  | .result _ _ => none

/-- The frames issued, in order (R30). -/
def issuedFrames (h : List Event) : List Bytes := h.filterMap Event.issuedFrame

/-- A frame the block may emit (R64, R70, R111): the frame of some command, and below the limit, but for READ frames under
the `pass` policy. -/
def emittable (p : Params) (f : Bytes) : Prop :=
  (∃ i, decode f = .ok i) ∧ (f.length < transactionLimit ∨ (frameOpcode f = opcRead ∧ p.readOversize = .pass))

/-- The message an event puts on the result port, if it is one, with the ID it is tagged with (R61). -/
def Event.resultOf : Event → Option (Option Nat × Result)
  | .result id r => some (id, r)
  | .issue _ _ _ => none
  | .outcome _ _ => none
  | .diag _ _ _ _ _ _ => none

/-- The messages of the result port, in order (R30, R61). -/
def resultsIn (h : List Event) : List (Option Nat × Result) := h.filterMap Event.resultOf

/-- The state with every trace of DEBUG removed: no diagnostic event, every context's DEBUG bit 0 (R156). -/
def State.muted (s : State) : State :=
  { s with history := withoutDiags s.history, contexts := s.contexts.map fun c => { c with dbg := false },
           port := s.port.map Instr.quiet }

/-- The same of an answer. -/
def mutedAnswer : Answer → Answer
  | .next s => .next s.muted
  | .fault r => .fault r
  | .refused r => .refused r

/-! ### The events of whole transfers and commands -/

/-- The issue of one transfer: its event and, with DEBUG, its diagnostic event (R83, R155). -/
def issueEvents (id : Nat) (op : Op) (dbg : Bool) (k : Nat) (f : Bytes) : List Event :=
  .issue id k f :: if dbg then [.diag id op k (frameAddr f) f.length (f.length - headerLen)] else []

/-- One transfer answered by `o`. -/
def transferEvents (id : Nat) (op : Op) (dbg : Bool) (k : Nat) (f : Bytes) (o : BusOutcome) : List Event :=
  issueEvents id op dbg k f ++ [.outcome id o]

/-- Transfers `k`, `k + 1`, ... with the frames and responses listed. -/
def exchangeEvents (id : Nat) (op : Op) (dbg : Bool) (k : Nat) : List (Bytes × Bytes) → List Event
  | [] => []
  | (f, r) :: rest => transferEvents id op dbg k f (.response r) ++ exchangeEvents id op dbg (k + 1) rest

/-- Each response has its frame's length, one response a frame (R66). -/
def answersFit : List Bytes → List Bytes → Prop
  | [], [] => True
  | f :: fs, r :: rs => r.length = f.length ∧ answersFit fs rs
  | [], _ :: _ => False
  | _ :: _, [] => False

/-- The reference view after the first `n` transfers of a WRITE (R41, R112). -/
def chipAfter (m : Memory) (a : Addr) (d : Bytes) (n : Nat) : Memory :=
  (List.range n).foldl (fun m k => memWrite m (chunkAddr a k) (chunkPayload d k)) m

/-- A transfer of a `len`-byte frame is failed by `o`, with RESP_LEN `r` in the error's INFO (R83, R133): the bus reports
failure, or the response has another length. -/
def failedWith (len : Nat) (o : BusOutcome) (r : Option Nat) : Prop :=
  (o = .fail ∧ r = none) ∨ ∃ resp, o = .response resp ∧ resp.length ≠ len ∧ r = some resp.length

/-- The poll of the bus made in this state finds a response of `len` bytes (R66, R83). -/
def State.pollAnswered (s : State) (len : Nat) (resp : Bytes) : Prop :=
  s.nextOutcome = some (.response resp) ∧ resp.length = len

/-- The poll of the bus made in this state fails a transfer of a `len`-byte frame, with RESP_LEN `r` (R83, R133). -/
def State.pollFailed (s : State) (len : Nat) (r : Option Nat) : Prop :=
  ∃ o, s.nextOutcome = some o ∧ failedWith len o r

/-- The result a READ of context `c` with LEN `n` may have in state `s`: the phase and the cause of R132 (R131, R93, R83), the
INFO record of R133, and the data of R92. -/
def readResultFits (s : State) (c : Context) (n : Int) : Result → Prop
  | .okRead data =>
    c.phase = .xferRead ∧ (data.length : Int) = n ∧
      ∃ resp, s.pollAnswered (headerLen + n.toNat) resp ∧ data = resp.drop headerLen
  | .okWrite _ => False
  | .err .busInit => False
  | .err (.busTransfer id xfer r) =>
    c.phase = .xferRead ∧ id = c.id ∧ xfer = 0 ∧ c.chunk = 1 ∧ s.pollFailed (headerLen + n.toNat) r
  | .err (.invalidAddress id a) => c.phase = .check ∧ id = c.id ∧ a = c.reqAddr ∧ (a < 0 ∨ 65535 < a)
  | .err (.invalidLength id m) => c.phase = .check ∧ id = c.id ∧ m = n ∧ n < 0
  | .err (.oversizeRead id m) =>
    c.phase = .compose ∧ id = c.id ∧ m = n ∧ 4093 ≤ n ∧ s.params.readOversize = .fault
  | .err (.addressOverflow _ _ _) => False

/-- The result a WRITE of context `c` with DATA `d` may have in state `s`: the phase and the cause of R132 (R131, R83, R105),
the INFO record of R133, and the echo of R108.  The frames are those of R110. -/
def writeResultFits (s : State) (c : Context) (d : Bytes) : Result → Prop
  | .okRead _ => False
  | .okWrite echo =>
    c.phase = .xferFinal ∧ echo = d ∧
      ∃ resp, s.pollAnswered (chunkFrame (BitVec.ofInt addrWidth c.reqAddr) d (fullChunks d.length)).length resp
  | .err .busInit => False
  | .err (.busTransfer id xfer r) =>
    ((c.phase = .xferFull ∧ xfer < fullChunks d.length) ∨ (c.phase = .xferFinal ∧ xfer = fullChunks d.length)) ∧
      id = c.id ∧ xfer + 1 = c.chunk ∧ s.pollFailed (chunkFrame (BitVec.ofInt addrWidth c.reqAddr) d xfer).length r
  | .err (.invalidAddress id a) => c.phase = .check ∧ id = c.id ∧ a = c.reqAddr ∧ (a < 0 ∨ 65535 < a)
  | .err (.invalidLength id m) =>
    c.phase = .check ∧ id = c.id ∧ m = d.length ∧ ∃ bound, s.params.maxWriteLen = some bound ∧ bound < d.length
  | .err (.oversizeRead _ _) => False
  | .err (.addressOverflow id xfer a) =>
    c.phase = .advance ∧ id = c.id ∧ xfer = c.chunk ∧ 1 ≤ xfer ∧ xfer ≤ fullChunks d.length ∧
      a = chunkAddr (BitVec.ofInt addrWidth c.reqAddr) (xfer - 1) ∧ 65535 < a.toNat + 1000 ∧
      s.params.addrOverflow = .fault

/-- The result the phase a context is at may give it in state `s`. -/
def resultFits (s : State) (c : Context) (r : Result) : Prop :=
  match c.op with
  | .read => ∃ n, c.len = some n ∧ readResultFits s c n r
  | .write => ∃ d, c.data = some d ∧ writeResultFits s c d r

/-- The turns on which the block itself moves while `BUS` is not OPEN: all but a caller's offer and a reset (log 10). -/
def blockTurn : Turn → Bool
  | .offer _ => false
  | .accept _ _ _ => true
  | .run _ _ => true
  | .reset => false

/-- The phases R24, R90 and R101 let one phase lead to; `done` is the retired context, and an outstanding transfer stays
where it is until it is answered. -/
def phaseLeadsTo : Op → Phase → List Phase
  | .read, .check => [.compose, .done]
  | .read, .compose => [.xferRead, .done]
  | .read, .xferRead => [.xferRead, .done]
  | .write, .check => [.compose, .done]
  | .write, .compose => [.decide]
  | .write, .decide => [.xferFinal, .xferFull]
  | .write, .xferFull => [.xferFull, .advance, .done]
  | .write, .advance => [.decide, .done]
  | .write, .xferFinal => [.xferFinal, .done]
  | .read, .decide => []
  | .read, .xferFull => []
  | .read, .advance => []
  | .read, .xferFinal => []
  | .read, .done => []
  | .write, .xferRead => []
  | .write, .done => []

/-- Where the context with an ID stands; `done` once it is retired (R24). -/
def State.phaseOf (s : State) (id : Nat) : Phase :=
  match s.findContext id with
  | none => .done
  | some c => c.phase

/-- The phase function of an operation (R90, R101). -/
def phaseStep : Op → Context → State → Answer
  | .read => readPhase
  | .write => writePhase

/-- The block takes a command: `BUS = OPEN` and fewer than MAX_CONTEXTS contexts live (R60). -/
def State.takesCommands (s : State) : Prop := s.bus = .opened ∧ s.hasRoom = true

/-- The ID the present turn gives an accepted command. -/
def State.newId (s : State) : Nat := s.freshId s.grant.tag

/-- The parts of the state no command changes: parameters, BUS, CFG, the initialisation, the surroundings' turns and setter
answers, and the grant. -/
def sameSurroundings (s t : State) : Prop :=
  t.params = s.params ∧ t.bus = s.bus ∧ t.cfg = s.cfg ∧ t.init = s.init ∧ t.calls = s.calls ∧ t.agenda = s.agenda ∧
    t.setterAnswers = s.setterAnswers ∧ t.grant = s.grant

end Sys2Proof.Machine
end

