-- ==== Sys2Proof/Certificates/Slice0/Obligations.lean ====
section
/-! DEFINITION. The statements about the model, for the provers.  Each docstring names the rules of spec/ it speaks of, and
the assumption log where it rests on a choice of the model.  Every statement holds for all values of the parameters
`State.params` (log 1) and of the free values of Config (log 2, 3).  `s.grant` is the present turn's grant (log 3): how many
sequencer phases the command's context may go through before anything else moves, and the material of its ID. -/

open Sys2Proof Sys2Proof.Machine

/-! ### Encoding -/

/-- R81, all four composer laws. -/
def Obligations.ComposerLaws : Prop :=
  ∀ (opc opc' : Byte) (a a' : Addr) (p p' : Bytes),
    (compose opc a p).length = 3 + p.length ∧
    (compose opc a p).drop 3 = p ∧
    (compose opc a p).take 3 = (compose opc a p').take 3 ∧
    (compose opc a p = compose opc' a' p' → opc = opc' ∧ a = a' ∧ p = p')

/-- R42, R63: header bytes 1 and 2 are the high and low byte of the address; the header read as one 24-bit big-endian word
is `OPCODE * 65536 + ADDR`, with the opcode in bits 23..16 and the address in bits 15..0; and the decoding formulas of R63
read both back. -/
def Obligations.HeaderIsOneBigEndianWord : Prop :=
  ∀ (opc : Byte) (a : Addr) (p : Bytes),
    (compose opc a p)[1]? = some (hi8 a) ∧ (compose opc a p)[2]? = some (lo8 a) ∧
    (hi8 a).toNat = a.toNat / 256 ∧ (lo8 a).toNat = a.toNat % 256 ∧
    headerWord (compose opc a p) = opc.toNat * 65536 + a.toNat ∧
    headerWord (compose opc a p) / 65536 = opc.toNat ∧ headerWord (compose opc a p) % 65536 = a.toNat ∧
    frameAddr (compose opc a p) = a.toNat ∧ frameOpcode (compose opc a p) = opc

/-- R69: `decode(f)`, total on any bytes, case by case. -/
def Obligations.FrameObservation : Prop :=
  ∀ (f : Bytes),
    (f.length < 3 → viewFrame f = .notAFrame) ∧
    ∀ (b0 b1 b2 : Byte) (p : Bytes), f = b0 :: b1 :: b2 :: p →
      (b0 = 0x00#8 → viewFrame f = .writeFrame (b1.toNat * 256 + b2.toNat) p) ∧
      (b0 = 0x01#8 → viewFrame f = .readFrame (b1.toNat * 256 + b2.toNat) p.length) ∧
      (b0 ≠ 0x00#8 → b0 ≠ 0x01#8 → viewFrame f = .reservedOpcode b0)

/-- R62, R65, R69: decoding the request frame of any well-formed command gives the command back, all of it but the debug
bit, which no frame carries (R60). -/
def Obligations.DecodeOfEncodeIsTheCommand : Prop :=
  ∀ (i : Instr), i.wf = true → decode (encode i) = .ok i.quiet

/-- R60, R62, R70: what decodes is the request frame of exactly one well-formed command with DEBUG 0, the one it decodes to
(the same command with DEBUG 1 has the same frame).  So short frames, opcodes 0x02..0xFF and READ frames with a non-zero payload
decode to no command; that they are refused so is the model's choice (log 11, U18): R69 reads the last as a READ frame. -/
def Obligations.EncodeOfDecodeIsTheFrame : Prop :=
  ∀ (f : Bytes) (i : Instr), decode f = .ok i →
    encode i = f ∧ i.wf = true ∧ i.dbg = false ∧
    ∀ j : Instr, j.wf = true → j.dbg = false → encode j = f → j = i

/-- Frames written out from R62 decode to their commands: the worked examples of R90 and R80 and the vector F5; and a frame
with the reserved opcode 0x02 decodes to no command (R70; its name is the model's, log 11). -/
def Obligations.SampleFramesDecode : Prop :=
  decode [0x01#8, 0x12#8, 0x34#8, 0x00#8, 0x00#8, 0x00#8, 0x00#8] = .ok (.read 0x1234 4 false) ∧
  decode [0x01#8, 0x12#8, 0x34#8, 0x00#8, 0x00#8] = .ok (.read 0x1234 2 false) ∧
  decode [0x00#8, 0xFF#8, 0x00#8, 0x01#8] = .ok (.write 0xFF00 [0x01#8] false) ∧
  decode [0x02#8, 0x00#8, 0x00#8] = .error (.reservedOpcode 0x02#8)

/-! ### READ -/

/-- R90, R91, R92, R94, R95: an accepted READ with valid inputs, granted its three phases, issues exactly the one frame
`Compose(0x01, ADDR, zeros(LEN))`, with one diagnostic event when DEBUG is 1, and when the bus answers it with `3 + LEN` bytes
delivers those from offset 3 on; nothing else changes.  That the reference chip view is among what stays is the model's
choice (log 7): N8 leaves open whether a read has an effect on the chip, and R96 excepts the chip. -/
def Obligations.ReadCompletes : Prop :=
  ∀ (s : State) (a n : Int) (g : Bool) (resp : Bytes) (rest : List (Option BusOutcome)),
    s.takesCommands → 3 ≤ s.grant.burst → 0 ≤ a → a ≤ 65535 → 0 ≤ n →
    (n ≤ 4092 ∨ s.params.readOversize = .pass) →
    s.answers = some (.response resp) :: rest → (resp.length : Int) = 3 + n →
    exec (.read a n g) s = .next
      { s with
        answers := rest
        history := s.history ++
          transferEvents s.newId .read g 0 (compose 0x01#8 (BitVec.ofInt 16 a) (List.replicate n.toNat 0x00#8))
            (.response resp) ++
          [Event.result (some s.newId) (.okRead (resp.drop 3))] }

/-- R93 with the policy `fault`: a READ of 4093 bytes or more ends in OversizeRead and issues no transfer. -/
def Obligations.OversizeReadIssuesNothing : Prop :=
  ∀ (s : State) (a n : Int) (g : Bool),
    s.takesCommands → 2 ≤ s.grant.burst → 0 ≤ a → a ≤ 65535 → 4093 ≤ n → s.params.readOversize = .fault →
    exec (.read a n g) s = .next
      { s with history := s.history ++ [Event.result (some s.newId) (.err (.oversizeRead s.newId n))] }

/-- R131, R138: a READ with an address outside 0..65535 ends in InvalidAddress whatever its length; with a valid address and a
negative length in InvalidLength; neither issues a transfer. -/
def Obligations.ReadChecksItsInputs : Prop :=
  ∀ (s : State) (a n : Int) (g : Bool), s.takesCommands → 1 ≤ s.grant.burst →
    ((a < 0 ∨ 65535 < a) → exec (.read a n g) s = .next
      { s with history := s.history ++ [Event.result (some s.newId) (.err (.invalidAddress s.newId a))] }) ∧
    (0 ≤ a → a ≤ 65535 → n < 0 → exec (.read a n g) s = .next
      { s with history := s.history ++ [Event.result (some s.newId) (.err (.invalidLength s.newId n))] })

/-- R83, R133, R134: a READ whose transfer fails, or is answered with another length, ends in BusTransferError with XFER 0 and
the response length or NONE.  The reference chip view stays, by the model's choice (log 7). -/
def Obligations.ReadReportsAFailedTransfer : Prop :=
  ∀ (s : State) (a n : Int) (g : Bool) (o : BusOutcome) (r : Option Nat) (rest : List (Option BusOutcome)),
    s.takesCommands → 3 ≤ s.grant.burst → 0 ≤ a → a ≤ 65535 → 0 ≤ n →
    (n ≤ 4092 ∨ s.params.readOversize = .pass) →
    s.answers = some o :: rest → failedWith (3 + n.toNat) o r →
    exec (.read a n g) s = .next
      { s with
        answers := rest
        history := s.history ++ transferEvents s.newId .read g 0 (encode (.read a n g)) o ++
          [Event.result (some s.newId) (.err (.busTransfer s.newId 0 r))] }

/-- R24, R25, R29, R84: a READ whose transfer the bus has not answered is held in XFER_READ: its one transfer is issued and
counted, and no result is delivered.  The bus is polled once.  The reference chip view stays, by the model's choice (log 7). -/
def Obligations.ReadIsHeldUntilAnswered : Prop :=
  ∀ (s : State) (a n : Int) (g : Bool) (rest : List (Option BusOutcome)),
    s.takesCommands → s.grant.burst = 3 → 0 ≤ a → a ≤ 65535 → 0 ≤ n →
    (n ≤ 4092 ∨ s.params.readOversize = .pass) → s.answers = none :: rest →
    exec (.read a n g) s = .next
      { s with
        answers := rest
        history := s.history ++ issueEvents s.newId .read g 0 (encode (.read a n g))
        contexts := s.contexts ++
          [{ newContext s.newId (.read a n g) with
              frame := some (encode (.read a n g)), chunk := 1, phase := .xferRead }] }

/-- A READ changes no byte of the reference chip view, whatever the bus does with it.  That is the model's choice (log 7):
whether a read has an effect on the chip is not in the source (R51, N8), and R96, which says that a READ has no lasting effect
on the block, excepts the chip. -/
def Obligations.ReadLeavesChipViewAlone : Prop :=
  ∀ (s t : State) (a n : Int) (g : Bool), exec (.read a n g) s = .next t →
    ∀ x, memByte t.chip x = memByte s.chip x

/-! ### WRITE -/

/-- R100 to R110, R114: an accepted WRITE with valid inputs whose addresses do not overflow (or wrap by policy), granted its
phases, issues exactly the `K + 1` frames of R110's schedule in order, each once its forerunner is answered, with one
diagnostic event each when DEBUG is 1; when every transfer is answered with its frame's length it echoes the payload.  The
reference chip view takes each transfer's MemWrite (R41): that it does so at the outcome, and drops bytes past cell 0xFFFF, is
the model's choice (log 7, D24).  Nothing else changes. -/
def Obligations.WriteCompletesAsScheduled : Prop :=
  ∀ (s : State) (a : Int) (d : Bytes) (g : Bool) (resps : List Bytes) (rest : List (Option BusOutcome)),
    s.takesCommands → writePhases d.length ≤ s.grant.burst → 0 ≤ a → a ≤ 65535 →
    (∀ m, s.params.maxWriteLen = some m → d.length ≤ m) →
    (s.params.addrOverflow = .wrap ∨ a + 1000 * fullChunks d.length ≤ 65535) →
    s.answers = (resps.map fun r => some (.response r)) ++ rest →
    answersFit (writeSchedule (BitVec.ofInt 16 a) d) resps →
    exec (.write a d g) s = .next
      { s with
        answers := rest
        chip := chipAfter s.chip (BitVec.ofInt 16 a) d (fullChunks d.length + 1)
        history := s.history ++
          exchangeEvents s.newId .write g 0 ((writeSchedule (BitVec.ofInt 16 a) d).zip resps) ++
          [Event.result (some s.newId) (.okWrite d)] }

/-- R102, R103, R107, R108: a WRITE of at most 4092 bytes, at any address, is one transfer of its whole frame.  The reference
chip view takes its MemWrite (R41); that bytes past cell 0xFFFF are dropped is the model's choice (log 7; N8, U19). -/
def Obligations.ShortWriteIsOneTransfer : Prop :=
  ∀ (s : State) (a : Int) (d : Bytes) (g : Bool) (resp : Bytes) (rest : List (Option BusOutcome)),
    s.takesCommands → 4 ≤ s.grant.burst → 0 ≤ a → a ≤ 65535 → d.length ≤ 4092 →
    (∀ m, s.params.maxWriteLen = some m → d.length ≤ m) →
    s.answers = some (.response resp) :: rest → resp.length = 3 + d.length →
    exec (.write a d g) s = .next
      { s with
        answers := rest
        chip := memWrite s.chip (BitVec.ofInt 16 a) d
        history := s.history ++
          transferEvents s.newId .write g 0 (compose 0x00#8 (BitVec.ofInt 16 a) d) (.response resp) ++
          [Event.result (some s.newId) (.okWrite d)] }

/-- R105, R112 law 4, R133, R135: with the policy `fault`, when the stride after full chunk `k` would pass 0xFFFF, the WRITE
ends in AddressOverflow with XFER `k + 1` and the last full chunk's header address; exactly transfers `0 .. k` were issued.
The reference chip view takes their MemWrites (R41) and drops bytes past cell 0xFFFF, by the model's choice (log 7, D24). -/
def Obligations.WriteStopsAtAddressOverflow : Prop :=
  ∀ (s : State) (a : Int) (d : Bytes) (g : Bool) (k : Nat) (resps : List Bytes) (rest : List (Option BusOutcome)),
    s.takesCommands → 5 + 3 * k ≤ s.grant.burst → 0 ≤ a → a ≤ 65535 →
    (∀ m, s.params.maxWriteLen = some m → d.length ≤ m) → s.params.addrOverflow = .fault →
    k < fullChunks d.length → a + 1000 * k ≤ 65535 → 65535 < a + 1000 * (k + 1) →
    s.answers = (resps.map fun r => some (.response r)) ++ rest →
    answersFit ((writeSchedule (BitVec.ofInt 16 a) d).take (k + 1)) resps →
    exec (.write a d g) s = .next
      { s with
        answers := rest
        chip := chipAfter s.chip (BitVec.ofInt 16 a) d (k + 1)
        history := s.history ++
          exchangeEvents s.newId .write g 0 (((writeSchedule (BitVec.ofInt 16 a) d).take (k + 1)).zip resps) ++
          [Event.result (some s.newId)
            (.err (.addressOverflow s.newId (k + 1) (chunkAddr (BitVec.ofInt 16 a) k)))] }

/-- R112 law 4, R115, R133, R134, R137: when transfer `k` of a WRITE fails, exactly transfers `0 .. k` were issued, the result
is BusTransferError with XFER `k`, and the completed prefix stays.  The reference chip view takes the prefix's MemWrites (R41)
and knows nothing any more of the cells the rest of the payload targets, from the failing transfer on (R134, R167, U7): that
whole cells become unknown, counted mod 2^16, and that bytes past cell 0xFFFF are dropped, is the model's choice (log 7). -/
def Obligations.WriteStopsAtAFailedTransfer : Prop :=
  ∀ (s : State) (a : Int) (d : Bytes) (g : Bool) (k : Nat) (resps : List Bytes) (o : BusOutcome) (r : Option Nat)
    (rest : List (Option BusOutcome)),
    s.takesCommands → 4 + 3 * k ≤ s.grant.burst → 0 ≤ a → a ≤ 65535 →
    (∀ m, s.params.maxWriteLen = some m → d.length ≤ m) →
    (s.params.addrOverflow = .wrap ∨ a + 1000 * k ≤ 65535) → k ≤ fullChunks d.length →
    s.answers = (resps.map fun r => some (.response r)) ++ some o :: rest →
    answersFit ((writeSchedule (BitVec.ofInt 16 a) d).take k) resps →
    failedWith (chunkFrame (BitVec.ofInt 16 a) d k).length o r →
    exec (.write a d g) s = .next
      { s with
        answers := rest
        chip := memLose (chipAfter s.chip (BitVec.ofInt 16 a) d k) (chunkAddr (BitVec.ofInt 16 a) k)
          (d.length - 4000 * k)
        history := s.history ++
          exchangeEvents s.newId .write g 0 (((writeSchedule (BitVec.ofInt 16 a) d).take k).zip resps) ++
          transferEvents s.newId .write g k (chunkFrame (BitVec.ofInt 16 a) d k) o ++
          [Event.result (some s.newId) (.err (.busTransfer s.newId k r))] }

/-- R131, R138: a WRITE with an address outside 0..65535 ends in InvalidAddress whatever its length; with a valid address and a
payload longer than a bounded MAX_WRITE_LEN in InvalidLength; neither issues a transfer. -/
def Obligations.WriteChecksItsInputs : Prop :=
  ∀ (s : State) (a : Int) (d : Bytes) (g : Bool), s.takesCommands → 1 ≤ s.grant.burst →
    ((a < 0 ∨ 65535 < a) → exec (.write a d g) s = .next
      { s with history := s.history ++ [Event.result (some s.newId) (.err (.invalidAddress s.newId a))] }) ∧
    (∀ m, 0 ≤ a → a ≤ 65535 → s.params.maxWriteLen = some m → m < d.length → exec (.write a d g) s = .next
      { s with history := s.history ++ [Event.result (some s.newId) (.err (.invalidLength s.newId d.length))] })

/-- A WRITE leaves every byte of the reference chip view (R41) alone outside the cells its payload targets from its address
on, whatever the bus does with its transfers.  The cells are those `memLose` and `memWrite` use, reckoned from the command's
address.  That the target is counted in whole cells mod 2^16, and that no other cell is touched past 0xFFFF, is the model's
choice (log 7): no source has the chip's cell index wrap (R112 law 3, N6, N8). -/
def Obligations.WriteChangesOnlyItsTarget : Prop :=
  ∀ (s t : State) (a : Int) (d : Bytes) (g : Bool), exec (.write a d g) s = .next t →
    ∀ x, x < chipBytes → inTarget (BitVec.ofInt 16 a) d.length x = false → memByte t.chip x = memByte s.chip x

/-! ### The splitter's closed form, the multiplexer and the reference chip view -/

/-- R105 `StrideNext`: below the top of the address space the address advances by 1000 cells; past it the policy decides. -/
def Obligations.StrideAdvancesOrOverflows : Prop :=
  ∀ (a : Addr),
    (∀ p, a.toNat + 1000 ≤ 65535 → (strideNext p a).map BitVec.toNat = some (a.toNat + 1000)) ∧
    (65535 < a.toNat + 1000 → strideNext .fault a = none) ∧
    (65535 < a.toNat + 1000 → (strideNext .wrap a).map BitVec.toNat = some (a.toNat + 1000 - 65536))

/-- R111, all four bounds of R110's schedule. -/
def Obligations.ScheduleBounds : Prop :=
  ∀ (a : Addr) (d : Bytes),
    (∀ k, k < fullChunks d.length → (chunkFrame a d k).length = 4003) ∧
    (∀ f ∈ writeSchedule a d, f.length < 4096) ∧
    (1 ≤ fullChunks d.length →
      93 ≤ d.length - 4000 * fullChunks d.length ∧ d.length - 4000 * fullChunks d.length ≤ 4092 ∧
      (chunkFrame a d (fullChunks d.length)).length = 3 + (d.length - 4000 * fullChunks d.length)) ∧
    (fullChunks d.length = 0 → writeSchedule a d = [compose 0x00#8 a d] ∧ d.length ≤ 4092) ∧
    ((writeSchedule a d).map fun f => (framePayload f).length).sum = d.length

/-- R112 law 1, R43: the payloads of the schedule's transfers, in order, are the caller's payload, each byte once. -/
def Obligations.ScheduleCarriesThePayloadOnce : Prop :=
  ∀ (a : Addr) (d : Bytes), ((writeSchedule a d).map framePayload).flatten = d

/-- R112 law 2, R110: the first header address is the command's and each later one is its forerunner's plus 1000, mod 2^16;
the opcode of every frame of the schedule, be it the only one, is 0x00 (R64). -/
def Obligations.ScheduleAddressesAdvanceByOneStride : Prop :=
  ∀ (a : Addr) (d : Bytes),
    (∀ f ∈ writeSchedule a d, frameOpcode f = 0x00#8) ∧
    (∃ f, (writeSchedule a d)[0]? = some f ∧ frameAddr f = a.toNat) ∧
    ∀ (k : Nat) (f f' : Bytes), (writeSchedule a d)[k]? = some f → (writeSchedule a d)[k + 1]? = some f' →
      frameAddr f' = (frameAddr f + 1000) % 65536

/-- R112 law 3, R41: when no address wraps, the MemWrites of the schedule's transfers in order give the same view as one
MemWrite of the whole payload. -/
def Obligations.ChunkedWritesEqualOneWrite : Prop :=
  ∀ (m : Memory) (a : Addr) (d : Bytes), a.toNat + 1000 * fullChunks d.length ≤ 65535 →
    chipAfter m a d (fullChunks d.length + 1) = memWrite m a d

/-- R41 `MemWrite(a, p)`: byte `j` of `p` is byte `j mod 4` of cell `a + j div 4` (inside the register space), and every
other byte is as before. -/
def Obligations.MemWritePlacesEachByte : Prop :=
  ∀ (m : Memory) (a : Addr) (p : Bytes),
    (∀ (j : Nat) (h : j < p.length), a.toNat + j / 4 < 65536 →
      cellByte (memWrite m a p) (a.toNat + j / 4) (j % 4) = some p[j]) ∧
    (∀ x, (x < 4 * a.toNat ∨ 4 * a.toNat + p.length ≤ x) → memByte (memWrite m a p) x = memByte m x)

/-! ### Reset, initialisation and the life of the bus -/

/-- R31, R160: after reset BUS is CLOSED, there is no configuration, no context and no event, and the initialisation stands
at its first call.  That no command waits at the port and nothing is known of the chip are the model's choices (log 8, 7). -/
def Obligations.ResetValues : Prop :=
  State.reset.bus = .closed ∧ State.reset.cfg = none ∧ State.reset.contexts = [] ∧ State.reset.history = [] ∧
  State.reset.init = .openHandle ∧ State.reset.port = [] ∧ ∀ x, memByte State.reset.chip x = none

/-- R161, R162, R26, R150: from CLOSED, whatever waits at the port, four successful calls of the bus handle, `open` and the
three setters in R162's order, end with `BUS = OPEN` and the configuration 8, 1000000, 0.  Each call is one turn of the block's
own, be it a run turn or one that would take a command (the model's choice, log 10). -/
def Obligations.InitialisationOpensTheBus : Prop :=
  ∀ (s : State) (t1 t2 t3 t4 : Turn) (turns : List Turn) (oks : List Bool),
    s.bus = .closed → s.init = .openHandle →
    blockTurn t1 = true → blockTurn t2 = true → blockTurn t3 = true → blockTurn t4 = true →
    s.agenda = t1 :: t2 :: t3 :: t4 :: turns →
    s.setterAnswers = true :: true :: true :: true :: oks →
    core.run 4 s = .next
      { s with
        bus := .opened, cfg := some ⟨8, 1000000, 0⟩, init := .setMode, agenda := turns, setterAnswers := oks
        calls := s.calls ++ [.openHandle s.params.busId s.params.deviceId, .set .bitsPerWord 8,
          .set .maxSpeedHz 1000000, .set .mode 0] }

/-- R136, R162: a call of the initialisation sequence that fails, whichever it is, ends in INIT_FAILED and reports
BusInitError once, with no context ID; from then on the block's own turns are the fault state of R136, and a caller's
command waits at the port without effect (R163).  Which turns are the block's own is the model's choice (log 9, 10). -/
def Obligations.FailedInitialisationIsFinal : Prop :=
  (∀ (s : State) (t : Turn) (turns : List Turn) (oks : List Bool),
    s.bus = .closed → blockTurn t = true → s.agenda = t :: turns → s.setterAnswers = false :: oks →
    step s = .next
      { s with
        bus := .initFailed, agenda := turns, setterAnswers := oks, calls := s.calls ++ [initCall s.params s.init]
        history := s.history ++ [Event.result none (.err .busInit)] }) ∧
  (∀ (s : State) (turns : List Turn), s.bus = .initFailed →
    (∀ t, blockTurn t = true → s.agenda = t :: turns → step s = .fault .busInitFailed) ∧
    (∀ i, s.agenda = .offer i :: turns → step s = .next { s with agenda := turns, port := s.port ++ [i] }))

/-- R26, R164: no turn but a reset takes BUS from OPEN; no turn at all changes the parameters, and with BUS OPEN the
configuration stays. -/
def Obligations.OnlyResetClosesTheBus : Prop :=
  ∀ (s t : State), step s = .next t →
    t.params = s.params ∧ (s.bus = .opened → s.nextTurn ≠ .reset → t.bus = .opened ∧ t.cfg = s.cfg)

/-- R160: a reset with a context live is refused; with none live it gives BUS, CFG, the contexts and the history their values
of R31, and the initialisation starts anew.  That a reset after power-on has an effect, that the waiting commands, the parameters
and the surroundings' inputs stay (log 8), that the record of calls is cleared (log 8, 10) and that the chip view is forgotten
(log 7) are the model's choices: R160 models a reset at power-on only. -/
def Obligations.ResetNeedsNoLiveContext : Prop :=
  ∀ (s : State) (turns : List Turn), s.agenda = .reset :: turns →
    (s.contexts ≠ [] → step s = .refused .resetWhileLive) ∧
    (s.contexts = [] → step s = .next
      { s with
        bus := .closed, cfg := none, init := .openHandle, contexts := [], history := [], calls := [], chip := []
        agenda := turns })

/-! ### Acceptance, turns and steps -/

/-- R60, R163: while BUS is not OPEN, or MAX_CONTEXTS contexts are live, a command waits at the port and changes nothing
else. -/
def Obligations.CommandsWaitAtTheClosedOrFullPort : Prop :=
  ∀ (s : State) (i : Instr),
    (s.bus ≠ .opened ∨ ∃ m, s.params.maxContexts = some m ∧ m ≤ s.contexts.length) →
    exec i s = .next { s with port := s.port ++ [i] }

/-- The frame of every command, whatever its inputs and whatever the bus does: the surroundings stay, the contexts live
before it stay as they are with at most its own context after them, the history only grows, at most the command itself is
added to the port, and bus answers are only consumed (R29, R137, R139, R152). -/
def Obligations.CommandFrame : Prop :=
  ∀ (i : Instr) (s t : State), exec i s = .next t →
    sameSurroundings s t ∧
    (t.contexts = s.contexts ∨ ∃ c, t.contexts = s.contexts ++ [c] ∧ c.id = s.newId) ∧
    (∃ es, t.history = s.history ++ es) ∧ (t.port = s.port ∨ t.port = s.port ++ [i]) ∧
    (∃ n, t.answers = s.answers.drop n)

/-- A step runs the decoded command: when the bytes `f` decode to `i`, the step from the state with `f`'s command placed at
the port is exec of `i`, on the initialised block with the command taken from the port and a grant for all its phases (log
3, 4). -/
def Obligations.StepRunsTheFrameCommand : Prop :=
  ∀ (s : State) (f : Bytes) (i : Instr), decode f = .ok i →
    step (s.withFrameCommand f) =
      exec i { s with bus := .opened, cfg := some ⟨8, 1000000, 0⟩, grant := ⟨0, phasesOf i⟩ }

/-- R60: on a turn that takes waiting command number `k`, a step is exec of that command, taken from the port, with the
turn's grant. -/
def Obligations.StepTakesAWaitingCommand : Prop :=
  ∀ (s : State) (k tag burst : Nat) (i : Instr) (turns : List Turn),
    s.bus = .opened → s.agenda = .accept k tag burst :: turns → s.port[k]? = some i →
    step s = exec i { s with agenda := turns, port := s.port.eraseIdx k, grant := ⟨tag, burst⟩ }

/-- R13, R50, R85: on a turn of live context number `k`, whichever it is, a step is a run of that context's phases; so every
order of the contexts' phases is a run. -/
def Obligations.StepRunsALiveContext : Prop :=
  ∀ (s : State) (k burst : Nat) (c : Context) (turns : List Turn),
    s.bus = .opened → s.agenda = .run k burst :: turns → s.contexts[k]? = some c →
    step s = runPhases (phaseStep c.op) c.id burst { s with agenda := turns }

/-- R24, R90, R101: in a state that keeps the invariant, one phase of a live context takes it only where R24 lets its phase
lead. -/
def Obligations.PhasesFollowTheSequencer : Prop :=
  ∀ (s t : State) (c : Context), s.Inv → c ∈ s.contexts → phaseStep c.op c s = .next t →
    t.phaseOf c.id ∈ phaseLeadsTo c.op c.phase

/-- R61, R92, R108, R132, R133, R137: in a state that keeps the invariant, and whatever happened between its phases, a phase
that retires its context delivers exactly one message on the result port, tagged with the context's ID: a READ's data, the LEN
bytes of the polled response from offset 3 on; a WRITE's payload, once its final transfer is answered with its frame's length;
or an error in the phase and for the cause R132 gives the operation, with every value of R133's INFO record: the ID, the
address, length or LEN as given, XFER (the transfers issued less one, or those completed), RESP_LEN as the polled outcome has
it, and the last full chunk's header address.  Any other phase delivers none. -/
def Obligations.EachContextEndsInOneFittingResult : Prop :=
  ∀ (s t : State) (c : Context), s.Inv → c ∈ s.contexts → phaseStep c.op c s = .next t →
    ∃ es, t.history = s.history ++ es ∧
      ((t.phaseOf c.id = .done ∧ ∃ r, resultsIn es = [(some c.id, r)] ∧ resultFits s c r) ∨
        (t.phaseOf c.id ≠ .done ∧ resultsIn es = []))

/-- R50, R83, R84: a context whose transfer is outstanding does nothing until the bus answers: a poll that finds no answer
is used up and changes nothing else, neither the history nor any context.  That the reference chip view is among what stays,
so that it keeps the old bytes of an outstanding WRITE's target, is the model's choice (log 7); no rule says it. -/
def Obligations.OutstandingTransferIssuesNothing : Prop :=
  ∀ (s : State) (c : Context) (rest : List (Option BusOutcome)), s.Inv → c ∈ s.contexts →
    (c.phase = .xferRead ∨ c.phase = .xferFull ∨ c.phase = .xferFinal) → s.answers = none :: rest →
    phaseStep c.op c s = .next { s with answers := rest }

/-- R139, R152: a turn of one live context leaves every other context, BUS, CFG, the port and the parameters as they are. -/
def Obligations.AContextsTurnLeavesTheOthersAlone : Prop :=
  ∀ (s t : State) (k burst : Nat) (c : Context) (turns : List Turn),
    s.bus = .opened → s.agenda = .run k burst :: turns → s.contexts[k]? = some c → step s = .next t →
    (∀ e ∈ s.contexts, e.id ≠ c.id → e ∈ t.contexts) ∧ t.bus = s.bus ∧ t.cfg = s.cfg ∧ t.port = s.port ∧
      t.params = s.params

/-! ### Invariants and whole-machine rules -/

/-- The invariant holds after reset. -/
def Obligations.ResetStateKeepsTheInvariant : Prop := State.reset.Inv

/-- R21 to R26, R31, R110: every step keeps the invariant: the configuration exists exactly with BUS OPEN and is 8, 1000000,
0; live contexts have distinct IDs and fit within MAX_CONTEXTS; each context's FRAME, ADDR and CHUNK are those of R23, R25 and
of the induction of R110 for its phase; the reference view keeps its canonical form. -/
def Obligations.EveryStepKeepsTheInvariant : Prop :=
  ∀ (s t : State), s.Inv → step s = .next t → t.Inv

/-- R31, R83, R136, R160: in a state that keeps the invariant, and outside INIT_FAILED, a step has a next state, or is the
refused reset of R160. -/
def Obligations.InvariantRulesOutFaults : Prop :=
  ∀ (s : State), s.Inv → s.bus ≠ .initFailed →
    (∃ t, step s = .next t) ∨ (step s = .refused .resetWhileLive ∧ s.nextTurn = .reset ∧ s.contexts ≠ [])

/-- R64, R70, R93, R111: from a state that keeps the invariant, a step adds only legal frames to the bus traffic: frames of
opcode 0x00 or 0x01 with a READ's filler all zero, and below the limit but for READs under the policy `pass`. -/
def Obligations.EmittedFramesAreLegal : Prop :=
  ∀ (s t : State), s.Inv → (∀ f ∈ issuedFrames s.history, emittable s.params f) → step s = .next t →
    ∀ f ∈ issuedFrames t.history, emittable t.params f

/-- R30: no turn but a reset removes or changes an event of the history. -/
def Obligations.HistoryOnlyGrows : Prop :=
  ∀ (s t : State), s.nextTurn ≠ .reset → step s = .next t → ∃ es, t.history = s.history ++ es

/-- R27, R95, R114, R156: DEBUG changes nothing but the diagnostic port: a step of the state and a step of the same state
with every DEBUG bit cleared and every diagnostic event removed answer the same, but for DEBUG bits and diagnostic events. -/
def Obligations.DebugChangesNothingElse : Prop :=
  ∀ (s : State), mutedAnswer (step s) = mutedAnswer (step s.muted)

/-! ### WRITEs held, and commands offered -/

/-- R25, R29, R83, R84, R110: a WRITE whose transfer `k` the bus has not answered is held in XFER_FULL, or in XFER_FINAL where
`k` is the last, with CHUNK `k + 1` and the address and frame of R110's induction; exactly transfers `0 .. k` are issued, and
no result is delivered.  The bus is polled once for transfer `k`.  The reference chip view has taken the MemWrites of the
transfers before it (R41) and holds the old bytes of its own target, by the model's choice (log 7). -/
def Obligations.WriteIsHeldUntilAnswered : Prop :=
  ∀ (s : State) (a : Int) (d : Bytes) (g : Bool) (k : Nat) (resps : List Bytes) (rest : List (Option BusOutcome)),
    s.takesCommands → s.grant.burst = 4 + 3 * k → 0 ≤ a → a ≤ 65535 →
    (∀ m, s.params.maxWriteLen = some m → d.length ≤ m) →
    (s.params.addrOverflow = .wrap ∨ a + 1000 * k ≤ 65535) → k ≤ fullChunks d.length →
    s.answers = (resps.map fun r => some (.response r)) ++ none :: rest →
    answersFit ((writeSchedule (BitVec.ofInt 16 a) d).take k) resps →
    exec (.write a d g) s = .next
      { s with
        answers := rest
        chip := chipAfter s.chip (BitVec.ofInt 16 a) d k
        history := s.history ++
          exchangeEvents s.newId .write g 0 (((writeSchedule (BitVec.ofInt 16 a) d).take k).zip resps) ++
          issueEvents s.newId .write g k (chunkFrame (BitVec.ofInt 16 a) d k)
        contexts := s.contexts ++
          [{ newContext s.newId (.write a d g) with
              addr := chunkAddr (BitVec.ofInt 16 a) k
              frame := some (compose 0x00#8 (chunkAddr (BitVec.ofInt 16 a) k) (d.drop (4000 * k)))
              chunk := k + 1
              phase := if k < fullChunks d.length then .xferFull else .xferFinal }] }

/-- R60, R163: whatever BUS is (CLOSED, OPEN or INIT_FAILED), a command a caller offers waits at the port and changes nothing
else; it is not dropped, and not accepted before a later turn takes it (log 3). -/
def Obligations.OfferedCommandsWait : Prop :=
  ∀ (s : State) (i : Instr) (turns : List Turn), s.agenda = .offer i :: turns →
    step s = .next { s with agenda := turns, port := s.port ++ [i] }
end

