-- ==== Sys2Proof/Laws/Chip.lean ====
section
/-! SUPPORT. The reference chip view: what a read finds after each operation, and that every operation keeps the canonical
form. -/

namespace Sys2Proof.Machine

theorem memByte_append (m n : Memory) (x : Nat) : memByte (m ++ n) x = (memByte m x).or (memByte n x) := by
  induction m with
  | nil => simp [memByte]
  | cons e m ih =>
    simp only [List.cons_append, memByte, ih]
    split <;> simp

/-- A filter on addresses hides exactly the bytes it drops. -/
theorem memByte_filter (m : Memory) (p : Nat → Bool) (x : Nat) :
    memByte (m.filter fun e => p e.1) x = if p x then memByte m x else none := by
  induction m with
  | nil => simp [memByte]
  | cons e m ih =>
    rw [List.filter_cons]
    by_cases he : p e.1 = true
    · simp only [he, if_true, memByte, ih]
      by_cases hx : e.1 = x
      · subst hx; simp [he]
      · simp [hx]
    · simp only [he]
      rw [if_neg (by simp), ih, memByte]
      by_cases hx : e.1 = x
      · subst hx; simp [he]
      · simp [hx]

theorem memByte_below (m : Memory) (b x : Nat) : memByte (memBelow m b) x = if x < b then memByte m x else none := by
  simpa [memBelow] using memByte_filter m (fun y => decide (y < b)) x

theorem memByte_from (m : Memory) (b x : Nat) : memByte (memFrom m b) x = if b ≤ x then memByte m x else none := by
  simpa [memFrom] using memByte_filter m (fun y => decide (b ≤ y)) x

theorem memByte_run (p : Bytes) : ∀ (b x : Nat), memByte (memRun b p) x = if b ≤ x then p[x - b]? else none := by
  induction p with
  | nil => intro b x; simp [memRun, memByte]
  | cons y p ih =>
    intro b x
    rw [memRun, memByte, ih]
    by_cases h : b = x
    · subst h; simp
    · by_cases h' : b + 1 ≤ x
      · obtain ⟨k, rfl⟩ : ∃ k, x = b + 1 + k := ⟨x - (b + 1), by omega⟩
        rw [if_neg h, if_pos h', if_pos (by omega), show b + 1 + k - (b + 1) = k by omega,
          show b + 1 + k - b = k + 1 by omega]
        rfl
      · rw [if_neg h, if_neg h', if_neg (by omega)]

/-- A read after a write: the byte written inside the run, the byte before it everywhere else. -/
theorem memByte_put (m : Memory) (b : Nat) (p : Bytes) (x : Nat) :
    memByte (memPut m b p) x = if b ≤ x ∧ x < b + p.length then p[x - b]? else memByte m x := by
  rw [memPut, memByte_append, memByte_append, memByte_below, memByte_run, memByte_from]
  by_cases h : x < b
  · rw [if_pos h, if_neg (by omega), if_neg (by omega), if_neg (by omega)]; simp
  · rw [if_neg h, if_pos (by omega)]
    by_cases h' : x < b + p.length
    · rw [if_neg (by omega), if_pos (by omega)]; simp
    · rw [if_pos (by omega), if_neg (by omega), List.getElem?_eq_none (by omega)]; simp

theorem memByte_lose (m : Memory) (a : Addr) (n x : Nat) :
    memByte (memLose m a n) x = if inTarget a n x then none else memByte m x := by
  rw [memLose, memByte_filter m (fun y => !inTarget a n y)]
  cases inTarget a n x <;> rfl

/-! ### The canonical form -/

theorem memWf_iff (m : Memory) :
    memWf m = true ↔ (m.Pairwise fun e f => e.1 < f.1) ∧ ∀ e ∈ m, e.1 < chipBytes := by
  simp [memWf]

theorem memWf_filter (m : Memory) (p : Host.Cell → Bool) (h : memWf m = true) : memWf (m.filter p) = true := by
  rw [memWf_iff] at h ⊢
  exact ⟨h.1.filter _, fun e he => h.2 e (List.mem_filter.1 he).1⟩

theorem mem_memRun (p : Bytes) : ∀ (b : Nat) (e : Host.Cell), e ∈ memRun b p → b ≤ e.1 ∧ e.1 < b + p.length := by
  induction p with
  | nil => intro b e h; cases h
  | cons y p ih =>
    intro b e h
    simp only [memRun, List.mem_cons, List.length_cons] at h ⊢
    rcases h with rfl | h
    · simp
    · have := ih (b + 1) e h; omega

theorem memRun_rising (p : Bytes) : ∀ b, (memRun b p).Pairwise fun e f => e.1 < f.1 := by
  induction p with
  | nil => intro b; exact List.Pairwise.nil
  | cons y p ih =>
    intro b
    exact List.Pairwise.cons (fun e he => by have := mem_memRun p (b + 1) e he; simp only; omega) (ih (b + 1))

/-- MemPut keeps the canonical form where the run fits the register space. -/
theorem memWf_put (m : Memory) (b : Nat) (p : Bytes) (h : memWf m = true) (hp : p = [] ∨ b + p.length ≤ chipBytes) :
    memWf (memPut m b p) = true := by
  rw [memWf_iff] at h ⊢
  have hb : ∀ e ∈ memBelow m b, e.1 < b ∧ e ∈ m := fun e he => by
    have := List.mem_filter.1 he; exact ⟨by simpa using this.2, this.1⟩
  have hf : ∀ e ∈ memFrom m (b + p.length), b + p.length ≤ e.1 ∧ e ∈ m := fun e he => by
    have := List.mem_filter.1 he; exact ⟨by simpa using this.2, this.1⟩
  refine ⟨?_, ?_⟩
  · rw [memPut, List.pairwise_append, List.pairwise_append]
    refine ⟨⟨h.1.filter _, memRun_rising p b, fun e he f hf' => ?_⟩, h.1.filter _, fun e he f hf' => ?_⟩
    · have := (hb e he).1; have := (mem_memRun p b f hf').1; omega
    · have h2 := (hf f hf').1
      rcases List.mem_append.1 he with he | he
      · have := (hb e he).1; omega
      · have := (mem_memRun p b e he).2; omega
  · intro e he
    rw [memPut] at he
    rcases List.mem_append.1 he with he | he
    · rcases List.mem_append.1 he with he | he
      · exact h.2 e (hb e he).2
      · rcases hp with rfl | hp
        · cases he
        · have := (mem_memRun p b e he).2; omega
    · exact h.2 e (hf e he).2

/-- MemWrite keeps the canonical form (R41). -/
theorem memWf_write (m : Memory) (a : Addr) (p : Bytes) (h : memWf m = true) : memWf (memWrite m a p) = true := by
  have ha := a.isLt
  refine memWf_put _ _ _ h (.inr ?_)
  simp only [cellBase, List.length_take, chipBytes, addressCount, cellSize]
  omega

/-- Forgetting cells keeps the canonical form. -/
theorem memWf_lose (m : Memory) (a : Addr) (n : Nat) (h : memWf m = true) : memWf (memLose m a n) = true :=
  memWf_filter m _ h

/-- R41: a read after a MemWrite, for addresses inside the register space. -/
theorem memByte_write (m : Memory) (a : Addr) (p : Bytes) (x : Nat) (hx : x < chipBytes) :
    memByte (memWrite m a p) x =
      if cellBase a ≤ x ∧ x < cellBase a + p.length then p[x - cellBase a]? else memByte m x := by
  rw [memWrite, memByte_put, List.length_take]
  simp only [chipBytes, addressCount, cellSize] at hx ⊢
  by_cases h : cellBase a ≤ x ∧ x < cellBase a + p.length
  · rw [if_pos h, if_pos (by omega), List.getElem?_take_of_lt (by omega)]
  · rw [if_neg h, if_neg (by omega)]

/-- Two payloads placed one after the other are one placed at once, whatever the list. -/
theorem memPut_append (m : Memory) (b : Nat) (p q : Bytes) : memPut (memPut m b p) (b + p.length) q = memPut m b (p ++ q) := by
  have hrun : ∀ (p q : Bytes) b, memRun b (p ++ q) = memRun b p ++ memRun (b + p.length) q := by
    intro p; induction p with
    | nil => intro q b; rfl
    | cons x p ih => intro q b; simp [memRun, ih]; congr 1; omega
  have h1 : ∀ m : Memory, memBelow (memBelow m b) (b + p.length) = memBelow m b := by
    intro m; rw [memBelow, memBelow, List.filter_filter]; apply List.filter_congr; intro x _; simp; omega
  have h2 : memBelow (memRun b p) (b + p.length) = memRun b p := by
    rw [memBelow, List.filter_eq_self]; intro e he; have := mem_memRun p b e he; simp; omega
  have h3 : memBelow (memFrom m (b + p.length)) (b + p.length) = [] := by
    rw [memBelow, memFrom, List.filter_filter, List.filter_eq_nil_iff]; intro x _; simp
  have h4 : memFrom (memBelow m b) (b + p.length + q.length) = [] := by
    rw [memBelow, memFrom, List.filter_filter, List.filter_eq_nil_iff]; intro x _; simp; omega
  have h5 : memFrom (memRun b p) (b + p.length + q.length) = [] := by
    rw [memFrom, List.filter_eq_nil_iff]; intro e he; have := mem_memRun p b e he; simp; omega
  have h6 : memFrom (memFrom m (b + p.length)) (b + p.length + q.length) = memFrom m (b + p.length + q.length) := by
    rw [memFrom, memFrom, List.filter_filter]; apply List.filter_congr; intro x _; simp; omega
  have ha : ∀ (m n : Memory) x, memBelow (m ++ n) x = memBelow m x ++ memBelow n x := fun m n x => List.filter_append ..
  have hb : ∀ (m n : Memory) x, memFrom (m ++ n) x = memFrom m x ++ memFrom n x := fun m n x => List.filter_append ..
  conv_lhs => rw [memPut]
  conv_lhs => rw [memPut]
  conv_rhs => rw [memPut]
  rw [ha, ha, hb, hb, h1, h2, h3, h4, h5, h6, hrun]
  simp [List.append_assoc, Nat.add_assoc]

end Sys2Proof.Machine
end

