-- ==== Sys2Proof/Laws/Compose.lean ====
section
/-! SUPPORT. Small lemmas of the frame composer, the operand forms and the closed form. -/

namespace Sys2Proof.Machine

@[simp] theorem length_compose (opc : Byte) (a : Addr) (p : Bytes) : (compose opc a p).length = p.length + 3 := rfl

@[simp] theorem length_zeros (n : Nat) : (zeros n).length = n := by simp [zeros]

@[simp] theorem framePayload_compose (opc : Byte) (a : Addr) (p : Bytes) : framePayload (compose opc a p) = p := rfl

@[simp] theorem frameOpcode_compose (opc : Byte) (a : Addr) (p : Bytes) : frameOpcode (compose opc a p) = opc := rfl

/-- R104: the full chunk of a frame is a frame of the first 4000 payload bytes. -/
@[simp] theorem fullChunk_compose (opc : Byte) (a : Addr) (p : Bytes) :
    fullChunk (compose opc a p) = compose opc a (p.take chunkPayloadLen) := rfl

/-- R106: the remainder of a frame is the payload from byte 4000 on. -/
@[simp] theorem remainder_compose (opc : Byte) (a : Addr) (p : Bytes) :
    remainder (compose opc a p) = p.drop chunkPayloadLen := rfl

/-- R110: the current frame before chunk `k` is below the limit exactly at `k = K`. -/
theorem lt_fullChunks_iff (len k : Nat) : k < fullChunks len ↔ 4092 + 4000 * k < len := by
  unfold fullChunks; split <;> omega

theorem fullChunks_single (len : Nat) (h : len ≤ 4092) : fullChunks len = 0 := by simp [fullChunks, h]

theorem chunkPayload_full (d : Bytes) (k : Nat) (h : k < fullChunks d.length) :
    chunkPayload d k = (d.drop (4000 * k)).take 4000 := by simp [chunkPayload, h]

theorem chunkPayload_final (d : Bytes) (k : Nat) (h : ¬k < fullChunks d.length) :
    chunkPayload d k = d.drop (4000 * k) := by simp [chunkPayload, h]

@[simp] theorem chunkAddr_zero (a : Addr) : chunkAddr a 0 = a := by simp [chunkAddr]

/-- R105 below the top of the address space: the next header address is the next of R110's addresses. -/
theorem strideNext_below (p : OverflowPolicy) (a : Addr) (h : a.toNat + 1000 ≤ 65535) :
    strideNext p a = some (a + 1000#16) := by
  have : BitVec.ofNat 16 (a.toNat + 1000) = a + 1000#16 := by
    apply BitVec.eq_of_toNat_eq; simp
  simp [strideNext, h, this]

/-- R105 with the policy `wrap`. -/
theorem strideNext_wrap (a : Addr) : strideNext .wrap a = some (a + 1000#16) := by
  by_cases h : a.toNat + 1000 ≤ 65535
  · exact strideNext_below _ _ h
  · have : BitVec.ofNat 16 (a.toNat - 64536) = a + 1000#16 := by
      apply BitVec.eq_of_toNat_eq; simp; omega
    simp [strideNext, h, this]

/-- R105 with the policy `fault` past the top of the address space. -/
theorem strideNext_overflow (a : Addr) (h : 65535 < a.toNat + 1000) : strideNext .fault a = none := by
  simp [strideNext]; omega

theorem chunkAddr_succ (a : Addr) (k : Nat) : chunkAddr a k + 1000#16 = chunkAddr a (k + 1) := by
  apply BitVec.eq_of_toNat_eq
  simp [chunkAddr]; omega

/-! ### The header's address bytes -/

theorem hi8_toNat (a : Addr) : (hi8 a).toNat = a.toNat / 256 := by
  simp [hi8, Nat.shiftRight_eq_div_pow]
  have := a.isLt
  have h : 255 = 2^8 - 1 := rfl
  rw [h, Nat.and_two_pow_sub_one_eq_mod]; omega

theorem lo8_toNat (a : Addr) : (lo8 a).toNat = a.toNat % 256 := by
  simp [lo8]
  have h : 255 = 2^8 - 1 := rfl
  rw [h, Nat.and_two_pow_sub_one_eq_mod]; omega

theorem frameAddr_compose (opc : Byte) (a : Addr) (p : Bytes) : frameAddr (compose opc a p) = a.toNat := by
  show (hi8 a).toNat * 256 + (lo8 a).toNat = _
  rw [hi8_toNat, lo8_toNat]; omega

end Sys2Proof.Machine
end

