-- ==== Sys2Proof/Laws/State.lean ====
section
/-! SUPPORT. What each update of the state leaves in each field: one lemma per field per update. -/

namespace Sys2Proof.Machine

/-! ### `State.record` -/

@[simp] theorem State.record_params (s : State) (es : List Event) : (s.record es).params = s.params := rfl
@[simp] theorem State.record_bus (s : State) (es : List Event) : (s.record es).bus = s.bus := rfl
@[simp] theorem State.record_cfg (s : State) (es : List Event) : (s.record es).cfg = s.cfg := rfl
@[simp] theorem State.record_init (s : State) (es : List Event) : (s.record es).init = s.init := rfl
@[simp] theorem State.record_contexts (s : State) (es : List Event) : (s.record es).contexts = s.contexts := rfl
@[simp] theorem State.record_history (s : State) (es : List Event) : (s.record es).history = s.history ++ es := rfl
@[simp] theorem State.record_calls (s : State) (es : List Event) : (s.record es).calls = s.calls := rfl
@[simp] theorem State.record_port (s : State) (es : List Event) : (s.record es).port = s.port := rfl
@[simp] theorem State.record_chip (s : State) (es : List Event) : (s.record es).chip = s.chip := rfl
@[simp] theorem State.record_agenda (s : State) (es : List Event) : (s.record es).agenda = s.agenda := rfl
@[simp] theorem State.record_answers (s : State) (es : List Event) : (s.record es).answers = s.answers := rfl
@[simp] theorem State.record_setterAnswers (s : State) (es : List Event) :
    (s.record es).setterAnswers = s.setterAnswers := rfl
@[simp] theorem State.record_grant (s : State) (es : List Event) : (s.record es).grant = s.grant := rfl
@[simp] theorem State.record_draws (s : State) (es : List Event) : (s.record es).draws = s.draws := rfl

/-! ### `State.putContext` -/

@[simp] theorem State.putContext_params (s : State) (c : Context) : (s.putContext c).params = s.params := rfl
@[simp] theorem State.putContext_bus (s : State) (c : Context) : (s.putContext c).bus = s.bus := rfl
@[simp] theorem State.putContext_cfg (s : State) (c : Context) : (s.putContext c).cfg = s.cfg := rfl
@[simp] theorem State.putContext_init (s : State) (c : Context) : (s.putContext c).init = s.init := rfl
@[simp] theorem State.putContext_contexts (s : State) (c : Context) :
    (s.putContext c).contexts = s.contexts.map fun d => if d.id = c.id then c else d := rfl
@[simp] theorem State.putContext_history (s : State) (c : Context) : (s.putContext c).history = s.history := rfl
@[simp] theorem State.putContext_calls (s : State) (c : Context) : (s.putContext c).calls = s.calls := rfl
@[simp] theorem State.putContext_port (s : State) (c : Context) : (s.putContext c).port = s.port := rfl
@[simp] theorem State.putContext_chip (s : State) (c : Context) : (s.putContext c).chip = s.chip := rfl
@[simp] theorem State.putContext_agenda (s : State) (c : Context) : (s.putContext c).agenda = s.agenda := rfl
@[simp] theorem State.putContext_answers (s : State) (c : Context) : (s.putContext c).answers = s.answers := rfl
@[simp] theorem State.putContext_setterAnswers (s : State) (c : Context) :
    (s.putContext c).setterAnswers = s.setterAnswers := rfl
@[simp] theorem State.putContext_grant (s : State) (c : Context) : (s.putContext c).grant = s.grant := rfl
@[simp] theorem State.putContext_draws (s : State) (c : Context) : (s.putContext c).draws = s.draws := rfl

/-! ### `State.addContext` -/

@[simp] theorem State.addContext_params (s : State) (c : Context) : (s.addContext c).params = s.params := rfl
@[simp] theorem State.addContext_bus (s : State) (c : Context) : (s.addContext c).bus = s.bus := rfl
@[simp] theorem State.addContext_cfg (s : State) (c : Context) : (s.addContext c).cfg = s.cfg := rfl
@[simp] theorem State.addContext_init (s : State) (c : Context) : (s.addContext c).init = s.init := rfl
@[simp] theorem State.addContext_contexts (s : State) (c : Context) :
    (s.addContext c).contexts = s.contexts ++ [c] := rfl
@[simp] theorem State.addContext_history (s : State) (c : Context) : (s.addContext c).history = s.history := rfl
@[simp] theorem State.addContext_calls (s : State) (c : Context) : (s.addContext c).calls = s.calls := rfl
@[simp] theorem State.addContext_port (s : State) (c : Context) : (s.addContext c).port = s.port := rfl
@[simp] theorem State.addContext_chip (s : State) (c : Context) : (s.addContext c).chip = s.chip := rfl
@[simp] theorem State.addContext_agenda (s : State) (c : Context) : (s.addContext c).agenda = s.agenda := rfl
@[simp] theorem State.addContext_answers (s : State) (c : Context) : (s.addContext c).answers = s.answers := rfl
@[simp] theorem State.addContext_setterAnswers (s : State) (c : Context) :
    (s.addContext c).setterAnswers = s.setterAnswers := rfl
@[simp] theorem State.addContext_grant (s : State) (c : Context) : (s.addContext c).grant = s.grant := rfl
@[simp] theorem State.addContext_draws (s : State) (c : Context) : (s.addContext c).draws = s.draws := rfl

/-! ### `State.retire` -/

@[simp] theorem State.retire_params (s : State) (id : Nat) : (s.retire id).params = s.params := rfl
@[simp] theorem State.retire_bus (s : State) (id : Nat) : (s.retire id).bus = s.bus := rfl
@[simp] theorem State.retire_cfg (s : State) (id : Nat) : (s.retire id).cfg = s.cfg := rfl
@[simp] theorem State.retire_init (s : State) (id : Nat) : (s.retire id).init = s.init := rfl
@[simp] theorem State.retire_contexts (s : State) (id : Nat) :
    (s.retire id).contexts = s.contexts.filter fun c => c.id != id := rfl
@[simp] theorem State.retire_history (s : State) (id : Nat) : (s.retire id).history = s.history := rfl
@[simp] theorem State.retire_calls (s : State) (id : Nat) : (s.retire id).calls = s.calls := rfl
@[simp] theorem State.retire_port (s : State) (id : Nat) : (s.retire id).port = s.port := rfl
@[simp] theorem State.retire_chip (s : State) (id : Nat) : (s.retire id).chip = s.chip := rfl
@[simp] theorem State.retire_agenda (s : State) (id : Nat) : (s.retire id).agenda = s.agenda := rfl
@[simp] theorem State.retire_answers (s : State) (id : Nat) : (s.retire id).answers = s.answers := rfl
@[simp] theorem State.retire_setterAnswers (s : State) (id : Nat) : (s.retire id).setterAnswers = s.setterAnswers := rfl
@[simp] theorem State.retire_grant (s : State) (id : Nat) : (s.retire id).grant = s.grant := rfl
@[simp] theorem State.retire_draws (s : State) (id : Nat) : (s.retire id).draws = s.draws := rfl

/-! ### `State.finish` -/

@[simp] theorem State.finish_params (s : State) (c : Context) (r : Result) : (s.finish c r).params = s.params := rfl
@[simp] theorem State.finish_bus (s : State) (c : Context) (r : Result) : (s.finish c r).bus = s.bus := rfl
@[simp] theorem State.finish_cfg (s : State) (c : Context) (r : Result) : (s.finish c r).cfg = s.cfg := rfl
@[simp] theorem State.finish_init (s : State) (c : Context) (r : Result) : (s.finish c r).init = s.init := rfl
@[simp] theorem State.finish_contexts (s : State) (c : Context) (r : Result) :
    (s.finish c r).contexts = s.contexts.filter fun d => d.id != c.id := rfl
@[simp] theorem State.finish_history (s : State) (c : Context) (r : Result) :
    (s.finish c r).history = s.history ++ [.result (some c.id) r] := rfl
@[simp] theorem State.finish_calls (s : State) (c : Context) (r : Result) : (s.finish c r).calls = s.calls := rfl
@[simp] theorem State.finish_port (s : State) (c : Context) (r : Result) : (s.finish c r).port = s.port := rfl
@[simp] theorem State.finish_chip (s : State) (c : Context) (r : Result) : (s.finish c r).chip = s.chip := rfl
@[simp] theorem State.finish_agenda (s : State) (c : Context) (r : Result) : (s.finish c r).agenda = s.agenda := rfl
@[simp] theorem State.finish_answers (s : State) (c : Context) (r : Result) : (s.finish c r).answers = s.answers := rfl
@[simp] theorem State.finish_setterAnswers (s : State) (c : Context) (r : Result) :
    (s.finish c r).setterAnswers = s.setterAnswers := rfl
@[simp] theorem State.finish_grant (s : State) (c : Context) (r : Result) : (s.finish c r).grant = s.grant := rfl
@[simp] theorem State.finish_draws (s : State) (c : Context) (r : Result) : (s.finish c r).draws = s.draws := rfl

/-! ### `State.raiseError` -/

@[simp] theorem State.raiseError_params (s : State) (c : Context) (e : OpError) :
    (s.raiseError c e).params = s.params := rfl
@[simp] theorem State.raiseError_bus (s : State) (c : Context) (e : OpError) : (s.raiseError c e).bus = s.bus := rfl
@[simp] theorem State.raiseError_cfg (s : State) (c : Context) (e : OpError) : (s.raiseError c e).cfg = s.cfg := rfl
@[simp] theorem State.raiseError_init (s : State) (c : Context) (e : OpError) : (s.raiseError c e).init = s.init := rfl
@[simp] theorem State.raiseError_contexts (s : State) (c : Context) (e : OpError) :
    (s.raiseError c e).contexts = s.contexts.filter fun d => d.id != c.id := rfl
@[simp] theorem State.raiseError_history (s : State) (c : Context) (e : OpError) :
    (s.raiseError c e).history = s.history ++ [.result (some c.id) (.err e)] := rfl
@[simp] theorem State.raiseError_calls (s : State) (c : Context) (e : OpError) :
    (s.raiseError c e).calls = s.calls := rfl
@[simp] theorem State.raiseError_port (s : State) (c : Context) (e : OpError) : (s.raiseError c e).port = s.port := rfl
@[simp] theorem State.raiseError_chip (s : State) (c : Context) (e : OpError) : (s.raiseError c e).chip = s.chip := rfl
@[simp] theorem State.raiseError_agenda (s : State) (c : Context) (e : OpError) :
    (s.raiseError c e).agenda = s.agenda := rfl
@[simp] theorem State.raiseError_answers (s : State) (c : Context) (e : OpError) :
    (s.raiseError c e).answers = s.answers := rfl
@[simp] theorem State.raiseError_setterAnswers (s : State) (c : Context) (e : OpError) :
    (s.raiseError c e).setterAnswers = s.setterAnswers := rfl
@[simp] theorem State.raiseError_grant (s : State) (c : Context) (e : OpError) :
    (s.raiseError c e).grant = s.grant := rfl
@[simp] theorem State.raiseError_draws (s : State) (c : Context) (e : OpError) :
    (s.raiseError c e).draws = s.draws := rfl

/-! ### `State.waitAtPort` -/

@[simp] theorem State.waitAtPort_params (s : State) (i : Instr) : (s.waitAtPort i).params = s.params := rfl
@[simp] theorem State.waitAtPort_bus (s : State) (i : Instr) : (s.waitAtPort i).bus = s.bus := rfl
@[simp] theorem State.waitAtPort_cfg (s : State) (i : Instr) : (s.waitAtPort i).cfg = s.cfg := rfl
@[simp] theorem State.waitAtPort_init (s : State) (i : Instr) : (s.waitAtPort i).init = s.init := rfl
@[simp] theorem State.waitAtPort_contexts (s : State) (i : Instr) : (s.waitAtPort i).contexts = s.contexts := rfl
@[simp] theorem State.waitAtPort_history (s : State) (i : Instr) : (s.waitAtPort i).history = s.history := rfl
@[simp] theorem State.waitAtPort_calls (s : State) (i : Instr) : (s.waitAtPort i).calls = s.calls := rfl
@[simp] theorem State.waitAtPort_port (s : State) (i : Instr) : (s.waitAtPort i).port = s.port ++ [i] := rfl
@[simp] theorem State.waitAtPort_chip (s : State) (i : Instr) : (s.waitAtPort i).chip = s.chip := rfl
@[simp] theorem State.waitAtPort_agenda (s : State) (i : Instr) : (s.waitAtPort i).agenda = s.agenda := rfl
@[simp] theorem State.waitAtPort_answers (s : State) (i : Instr) : (s.waitAtPort i).answers = s.answers := rfl
@[simp] theorem State.waitAtPort_setterAnswers (s : State) (i : Instr) :
    (s.waitAtPort i).setterAnswers = s.setterAnswers := rfl
@[simp] theorem State.waitAtPort_grant (s : State) (i : Instr) : (s.waitAtPort i).grant = s.grant := rfl
@[simp] theorem State.waitAtPort_draws (s : State) (i : Instr) : (s.waitAtPort i).draws = s.draws := rfl

/-! ### `State.transferLanded` -/

@[simp] theorem State.transferLanded_params (s : State) (c : Context) (f : Bytes) :
    (s.transferLanded c f).params = s.params := by
  unfold State.transferLanded; split <;> rfl
@[simp] theorem State.transferLanded_bus (s : State) (c : Context) (f : Bytes) :
    (s.transferLanded c f).bus = s.bus := by
  unfold State.transferLanded; split <;> rfl
@[simp] theorem State.transferLanded_cfg (s : State) (c : Context) (f : Bytes) :
    (s.transferLanded c f).cfg = s.cfg := by
  unfold State.transferLanded; split <;> rfl
@[simp] theorem State.transferLanded_init (s : State) (c : Context) (f : Bytes) :
    (s.transferLanded c f).init = s.init := by
  unfold State.transferLanded; split <;> rfl
@[simp] theorem State.transferLanded_contexts (s : State) (c : Context) (f : Bytes) :
    (s.transferLanded c f).contexts = s.contexts := by
  unfold State.transferLanded; split <;> rfl
@[simp] theorem State.transferLanded_history (s : State) (c : Context) (f : Bytes) :
    (s.transferLanded c f).history = s.history := by
  unfold State.transferLanded; split <;> rfl
@[simp] theorem State.transferLanded_calls (s : State) (c : Context) (f : Bytes) :
    (s.transferLanded c f).calls = s.calls := by
  unfold State.transferLanded; split <;> rfl
@[simp] theorem State.transferLanded_port (s : State) (c : Context) (f : Bytes) :
    (s.transferLanded c f).port = s.port := by
  unfold State.transferLanded; split <;> rfl
@[simp] theorem State.transferLanded_agenda (s : State) (c : Context) (f : Bytes) :
    (s.transferLanded c f).agenda = s.agenda := by
  unfold State.transferLanded; split <;> rfl
@[simp] theorem State.transferLanded_answers (s : State) (c : Context) (f : Bytes) :
    (s.transferLanded c f).answers = s.answers := by
  unfold State.transferLanded; split <;> rfl
@[simp] theorem State.transferLanded_setterAnswers (s : State) (c : Context) (f : Bytes) :
    (s.transferLanded c f).setterAnswers = s.setterAnswers := by
  unfold State.transferLanded; split <;> rfl
@[simp] theorem State.transferLanded_grant (s : State) (c : Context) (f : Bytes) :
    (s.transferLanded c f).grant = s.grant := by
  unfold State.transferLanded; split <;> rfl
@[simp] theorem State.transferLanded_draws (s : State) (c : Context) (f : Bytes) :
    (s.transferLanded c f).draws = s.draws := by
  unfold State.transferLanded; split <;> rfl

/-! ### `State.transferLost` -/

@[simp] theorem State.transferLost_params (s : State) (c : Context) (f : Bytes) :
    (s.transferLost c f).params = s.params := by
  unfold State.transferLost; split <;> rfl
@[simp] theorem State.transferLost_bus (s : State) (c : Context) (f : Bytes) :
    (s.transferLost c f).bus = s.bus := by
  unfold State.transferLost; split <;> rfl
@[simp] theorem State.transferLost_cfg (s : State) (c : Context) (f : Bytes) :
    (s.transferLost c f).cfg = s.cfg := by
  unfold State.transferLost; split <;> rfl
@[simp] theorem State.transferLost_init (s : State) (c : Context) (f : Bytes) :
    (s.transferLost c f).init = s.init := by
  unfold State.transferLost; split <;> rfl
@[simp] theorem State.transferLost_contexts (s : State) (c : Context) (f : Bytes) :
    (s.transferLost c f).contexts = s.contexts := by
  unfold State.transferLost; split <;> rfl
@[simp] theorem State.transferLost_history (s : State) (c : Context) (f : Bytes) :
    (s.transferLost c f).history = s.history := by
  unfold State.transferLost; split <;> rfl
@[simp] theorem State.transferLost_calls (s : State) (c : Context) (f : Bytes) :
    (s.transferLost c f).calls = s.calls := by
  unfold State.transferLost; split <;> rfl
@[simp] theorem State.transferLost_port (s : State) (c : Context) (f : Bytes) :
    (s.transferLost c f).port = s.port := by
  unfold State.transferLost; split <;> rfl
@[simp] theorem State.transferLost_agenda (s : State) (c : Context) (f : Bytes) :
    (s.transferLost c f).agenda = s.agenda := by
  unfold State.transferLost; split <;> rfl
@[simp] theorem State.transferLost_answers (s : State) (c : Context) (f : Bytes) :
    (s.transferLost c f).answers = s.answers := by
  unfold State.transferLost; split <;> rfl
@[simp] theorem State.transferLost_setterAnswers (s : State) (c : Context) (f : Bytes) :
    (s.transferLost c f).setterAnswers = s.setterAnswers := by
  unfold State.transferLost; split <;> rfl
@[simp] theorem State.transferLost_grant (s : State) (c : Context) (f : Bytes) :
    (s.transferLost c f).grant = s.grant := by
  unfold State.transferLost; split <;> rfl
@[simp] theorem State.transferLost_draws (s : State) (c : Context) (f : Bytes) :
    (s.transferLost c f).draws = s.draws := by
  unfold State.transferLost; split <;> rfl

/-! ### `State.afterOutcome` -/

@[simp] theorem State.afterOutcome_params (s : State) :
    s.afterOutcome.params = s.params := by
  unfold State.afterOutcome; split <;> simp_all
@[simp] theorem State.afterOutcome_bus (s : State) :
    s.afterOutcome.bus = s.bus := by
  unfold State.afterOutcome; split <;> simp_all
@[simp] theorem State.afterOutcome_cfg (s : State) :
    s.afterOutcome.cfg = s.cfg := by
  unfold State.afterOutcome; split <;> simp_all
@[simp] theorem State.afterOutcome_init (s : State) :
    s.afterOutcome.init = s.init := by
  unfold State.afterOutcome; split <;> simp_all
@[simp] theorem State.afterOutcome_contexts (s : State) :
    s.afterOutcome.contexts = s.contexts := by
  unfold State.afterOutcome; split <;> simp_all
@[simp] theorem State.afterOutcome_history (s : State) :
    s.afterOutcome.history = s.history := by
  unfold State.afterOutcome; split <;> simp_all
@[simp] theorem State.afterOutcome_calls (s : State) :
    s.afterOutcome.calls = s.calls := by
  unfold State.afterOutcome; split <;> simp_all
@[simp] theorem State.afterOutcome_port (s : State) :
    s.afterOutcome.port = s.port := by
  unfold State.afterOutcome; split <;> simp_all
@[simp] theorem State.afterOutcome_chip (s : State) :
    s.afterOutcome.chip = s.chip := by
  unfold State.afterOutcome; split <;> simp_all
@[simp] theorem State.afterOutcome_agenda (s : State) :
    s.afterOutcome.agenda = s.agenda := by
  unfold State.afterOutcome; split <;> simp_all
@[simp] theorem State.afterOutcome_answers (s : State) :
    s.afterOutcome.answers = s.answers.tail := by
  unfold State.afterOutcome; split <;> simp_all
@[simp] theorem State.afterOutcome_setterAnswers (s : State) :
    s.afterOutcome.setterAnswers = s.setterAnswers := by
  unfold State.afterOutcome; split <;> simp_all
@[simp] theorem State.afterOutcome_grant (s : State) :
    s.afterOutcome.grant = s.grant := by
  unfold State.afterOutcome; split <;> simp_all

/-! ### `State.afterTurn` -/

@[simp] theorem State.afterTurn_params (s : State) :
    s.afterTurn.params = s.params := by
  unfold State.afterTurn; split <;> simp_all
@[simp] theorem State.afterTurn_bus (s : State) :
    s.afterTurn.bus = s.bus := by
  unfold State.afterTurn; split <;> simp_all
@[simp] theorem State.afterTurn_cfg (s : State) :
    s.afterTurn.cfg = s.cfg := by
  unfold State.afterTurn; split <;> simp_all
@[simp] theorem State.afterTurn_init (s : State) :
    s.afterTurn.init = s.init := by
  unfold State.afterTurn; split <;> simp_all
@[simp] theorem State.afterTurn_contexts (s : State) :
    s.afterTurn.contexts = s.contexts := by
  unfold State.afterTurn; split <;> simp_all
@[simp] theorem State.afterTurn_history (s : State) :
    s.afterTurn.history = s.history := by
  unfold State.afterTurn; split <;> simp_all
@[simp] theorem State.afterTurn_calls (s : State) :
    s.afterTurn.calls = s.calls := by
  unfold State.afterTurn; split <;> simp_all
@[simp] theorem State.afterTurn_port (s : State) :
    s.afterTurn.port = s.port := by
  unfold State.afterTurn; split <;> simp_all
@[simp] theorem State.afterTurn_chip (s : State) :
    s.afterTurn.chip = s.chip := by
  unfold State.afterTurn; split <;> simp_all
@[simp] theorem State.afterTurn_agenda (s : State) :
    s.afterTurn.agenda = s.agenda.tail := by
  unfold State.afterTurn; split <;> simp_all
@[simp] theorem State.afterTurn_answers (s : State) :
    s.afterTurn.answers = s.answers := by
  unfold State.afterTurn; split <;> simp_all
@[simp] theorem State.afterTurn_setterAnswers (s : State) :
    s.afterTurn.setterAnswers = s.setterAnswers := by
  unfold State.afterTurn; split <;> simp_all
@[simp] theorem State.afterTurn_grant (s : State) :
    s.afterTurn.grant = s.grant := by
  unfold State.afterTurn; split <;> simp_all

/-! ### `State.afterSetter` -/

@[simp] theorem State.afterSetter_params (s : State) :
    s.afterSetter.params = s.params := by
  unfold State.afterSetter; split <;> simp_all
@[simp] theorem State.afterSetter_bus (s : State) :
    s.afterSetter.bus = s.bus := by
  unfold State.afterSetter; split <;> simp_all
@[simp] theorem State.afterSetter_cfg (s : State) :
    s.afterSetter.cfg = s.cfg := by
  unfold State.afterSetter; split <;> simp_all
@[simp] theorem State.afterSetter_init (s : State) :
    s.afterSetter.init = s.init := by
  unfold State.afterSetter; split <;> simp_all
@[simp] theorem State.afterSetter_contexts (s : State) :
    s.afterSetter.contexts = s.contexts := by
  unfold State.afterSetter; split <;> simp_all
@[simp] theorem State.afterSetter_history (s : State) :
    s.afterSetter.history = s.history := by
  unfold State.afterSetter; split <;> simp_all
@[simp] theorem State.afterSetter_calls (s : State) :
    s.afterSetter.calls = s.calls := by
  unfold State.afterSetter; split <;> simp_all
@[simp] theorem State.afterSetter_port (s : State) :
    s.afterSetter.port = s.port := by
  unfold State.afterSetter; split <;> simp_all
@[simp] theorem State.afterSetter_chip (s : State) :
    s.afterSetter.chip = s.chip := by
  unfold State.afterSetter; split <;> simp_all
@[simp] theorem State.afterSetter_agenda (s : State) :
    s.afterSetter.agenda = s.agenda := by
  unfold State.afterSetter; split <;> simp_all
@[simp] theorem State.afterSetter_answers (s : State) :
    s.afterSetter.answers = s.answers := by
  unfold State.afterSetter; split <;> simp_all
@[simp] theorem State.afterSetter_setterAnswers (s : State) :
    s.afterSetter.setterAnswers = s.setterAnswers.tail := by
  unfold State.afterSetter; split <;> simp_all
@[simp] theorem State.afterSetter_grant (s : State) :
    s.afterSetter.grant = s.grant := by
  unfold State.afterSetter; split <;> simp_all

end Sys2Proof.Machine
end

