-- ==== Sys2Proof/Laws/Ops.lean ====
section
/-! SUPPORT. What the shared operations do, once each: the set of contexts under a free ID, the transfer primitive, the run
of phases, acceptance. -/

namespace Sys2Proof.Machine

/-- No live context has this ID. -/
def State.IdFree (s : State) (id : Nat) : Prop := ∀ c ∈ s.contexts, c.id ≠ id

theorem foldr_max_ge (cs : List Context) (c : Context) (h : c ∈ cs) :
    c.id ≤ cs.foldr (fun c m => max c.id m) 0 := by
  induction cs with
  | nil => cases h
  | cons d ds ih =>
    simp only [List.foldr_cons]
    rcases List.mem_cons.1 h with rfl | h
    · omega
    · have := ih h; omega

/-- R21: the ID acceptance takes is unique among live contexts. -/
theorem State.freshId_free (s : State) (tag : Nat) : s.IdFree (s.freshId tag) := by
  intro c hc
  unfold State.freshId
  split
  · have := foldr_max_ge s.contexts c hc; omega
  · next h =>
    intro e
    exact h (List.any_eq_true.2 ⟨c, hc, by simp [e]⟩)


theorem State.findContext_add (s : State) (c : Context) (h : s.IdFree c.id) :
    (s.addContext c).findContext c.id = some c := by
  have : s.contexts.find? (fun d => d.id == c.id) = none := by
    simp only [List.find?_eq_none, beq_iff_eq]; exact h
  simp [State.findContext, List.find?_append, this]

theorem State.putContext_add (s : State) (c d : Context) (h : s.IdFree c.id) (hd : d.id = c.id) :
    (s.addContext c).putContext d = s.addContext d := by
  have : s.contexts.map (fun e => if e.id = c.id then d else e) = s.contexts := by
    conv_rhs => rw [← List.map_id s.contexts]
    exact List.map_congr_left fun e he => by simp [h e he]
  simp [State.putContext, State.addContext, this, hd]

theorem State.retire_add (s : State) (c : Context) (h : s.IdFree c.id) :
    (s.addContext c).retire c.id = s := by
  have : s.contexts.filter (fun e => e.id != c.id) = s.contexts :=
    List.filter_eq_self.2 fun e he => by simpa using h e he
  simp [State.retire, State.addContext, this]

theorem State.record_add (s : State) (c : Context) (es : List Event) :
    (s.addContext c).record es = (s.record es).addContext c := rfl

theorem State.record_record (s : State) (es fs : List Event) : (s.record es).record fs = s.record (es ++ fs) := by
  simp [State.record]

theorem State.finish_add (s : State) (c d : Context) (r : Result) (h : s.IdFree c.id) (hd : d.id = c.id) :
    (s.addContext c).finish d r = s.record [.result (some c.id) r] := by
  rw [State.finish, State.record_add, hd]
  exact State.retire_add _ _ h

theorem State.findContext_free (s : State) (id : Nat) (h : s.IdFree id) : s.findContext id = none := by
  simp only [State.findContext, List.find?_eq_none, beq_iff_eq]
  exact h

theorem runPhases_free (phase : Context → State → Answer) (id n : Nat) (s : State) (h : s.IdFree id) :
    runPhases phase id n s = .next s := by
  cases n <;> simp [runPhases, State.findContext_free s id h]

theorem runPhases_add (phase : Context → State → Answer) (id n : Nat) (s s' : State) (c : Context) (hid : c.id = id)
    (h : s.IdFree c.id) (hp : phase c (s.addContext c) = .next s') :
    runPhases phase id (n + 1) (s.addContext c) = runPhases phase id n s' := by
  subst hid
  simp [runPhases, State.findContext_add s c h, hp]

/-- A phase that ends the operation ends the run of phases. -/
theorem runPhases_last (phase : Context → State → Answer) (id n : Nat) (s s' : State) (c : Context) (hid : c.id = id)
    (h : s.IdFree c.id) (hp : phase c (s.addContext c) = .next s') (h' : s'.IdFree id) :
    runPhases phase id (n + 1) (s.addContext c) = .next s' := by
  rw [runPhases_add phase id n s s' c hid h hp, runPhases_free phase id n s' h']

theorem State.afterOutcome_add (s : State) (c : Context) : (s.addContext c).afterOutcome = s.afterOutcome.addContext c := by
  unfold State.afterOutcome State.addContext; cases s.answers <;> rfl

theorem State.nextOutcome_add (s : State) (c : Context) : (s.addContext c).nextOutcome = s.nextOutcome := rfl

theorem State.transferLanded_add (s : State) (c d : Context) (f : Bytes) :
    (s.addContext c).transferLanded d f = (s.transferLanded d f).addContext c := by
  unfold State.transferLanded; cases d.op <;> rfl

theorem State.transferLost_add (s : State) (c d : Context) (f : Bytes) :
    (s.addContext c).transferLost d f = (s.transferLost d f).addContext c := by
  unfold State.transferLost; cases d.op <;> rfl

theorem State.issueTransfer_add (s : State) (c d : Context) (wire : Bytes) (p : Phase) (h : s.IdFree c.id)
    (hd : d.id = c.id) (hb : s.bus = .opened) :
    (s.addContext c).issueTransfer d wire p =
      .next ((s.record (.issue c.id d.chunk wire :: diagEvents d wire)).addContext
        { d with chunk := d.chunk + 1, phase := p }) := by
  simp only [State.issueTransfer, State.addContext_bus, hb, State.record_add]
  rw [State.putContext_add _ _ _ (by simpa [State.IdFree] using h) (by simpa using hd), hd]

/-- R83 when the bus answers with a response of the frame's length. -/
theorem State.pollTransfer_response (s : State) (c : Context) (cur wire resp : Bytes) (k : Bytes → State → State)
    (ho : s.nextOutcome = some (.response resp)) (hl : resp.length = wire.length) :
    (s.addContext c).pollTransfer c cur wire k =
      k resp (((s.afterOutcome.record [.outcome c.id (.response resp)]).transferLanded c wire).addContext c) := by
  simp [State.pollTransfer, State.nextOutcome_add, ho, State.answerTransfer, hl, State.afterOutcome_add,
    State.record_add, State.transferLanded_add]

/-- R83 when the bus fails the transfer. -/
theorem State.pollTransfer_failure (s : State) (c : Context) (cur wire : Bytes) (k : Bytes → State → State)
    (o : BusOutcome) (r : Option Nat) (h : s.IdFree c.id) (ho : s.nextOutcome = some o)
    (hf : (o = .fail ∧ r = none) ∨ ∃ resp, o = .response resp ∧ resp.length ≠ wire.length ∧ r = some resp.length) :
    (s.addContext c).pollTransfer c cur wire k =
      ((s.afterOutcome.record [.outcome c.id o]).transferLost c cur).record
        [.result (some c.id) (.err (.busTransfer c.id (c.chunk - 1) r))] := by
  have hfree : ((s.afterOutcome.record [.outcome c.id o]).transferLost c cur).IdFree c.id := by
    simpa [State.IdFree] using h
  rcases hf with ⟨rfl, rfl⟩ | ⟨resp, rfl, hl, rfl⟩
  · simp [State.pollTransfer, State.nextOutcome_add, ho, State.answerTransfer, State.afterOutcome_add,
      State.record_add, State.transferLost_add, State.raiseError, State.finish_add _ _ _ _ hfree]
  · simp [State.pollTransfer, State.nextOutcome_add, ho, State.answerTransfer, State.afterOutcome_add, hl,
      State.record_add, State.transferLost_add, State.raiseError, State.finish_add _ _ _ _ hfree]

theorem State.newId_free (s : State) : s.IdFree s.newId := s.freshId_free _

theorem withLen_some (c : Context) (n : Int) (k : Int → Answer) (h : c.len = some n) : withLen c k = k n := by
  simp [withLen, h]

theorem withData_some (c : Context) (d : Bytes) (k : Bytes → Answer) (h : c.data = some d) : withData c k = k d := by
  simp [withData, h]

theorem withFrame_some (c : Context) (f : Bytes) (k : Bytes → Answer) (h : c.frame = some f) : withFrame c k = k f := by
  simp [withFrame, h]

theorem State.afterOutcome_cons (s : State) (o : Option BusOutcome) (r : List (Option BusOutcome))
    (h : s.answers = o :: r) : s.afterOutcome = { s with answers := r } := by
  simp [State.afterOutcome, h]

theorem State.nextOutcome_cons (s : State) (o : Option BusOutcome) (r : List (Option BusOutcome))
    (h : s.answers = o :: r) : s.nextOutcome = o := by
  simp [State.nextOutcome, h]

theorem record_issue (s : State) (c : Context) (f : Bytes) :
    s.record (.issue c.id c.chunk f :: diagEvents c f) = s.record (issueEvents c.id c.op c.dbg c.chunk f) := rfl

/-- R60: an accepted command's context goes through the phases granted. -/
theorem State.command_accepted (s : State) (i : Instr) (phase : Context → State → Answer) (h : s.takesCommands) :
    s.command i phase = runPhases phase s.newId s.grant.burst (s.addContext (newContext s.newId i)) := by
  simp [State.command, h.1, h.2, State.newId]

/-- R60: a command that is not accepted waits at the port. -/
theorem State.command_waits (s : State) (i : Instr) (phase : Context → State → Answer)
    (h : s.bus ≠ .opened ∨ s.hasRoom = false) : s.command i phase = .next (s.waitAtPort i) := by
  rcases h with h | h <;> cases hb : s.bus <;> simp [State.command, *] at *

/-- What can become of an outstanding transfer at a poll (R83, R84). -/
theorem State.pollTransfer_cases (s : State) (c : Context) (cur wire : Bytes) (k : Bytes → State → State) :
    (s.nextOutcome = none ∧ s.pollTransfer c cur wire k = s.afterOutcome) ∨
    (∃ o r, s.nextOutcome = some o ∧ failedWith wire.length o r ∧
      s.pollTransfer c cur wire k = ((s.afterOutcome.record [.outcome c.id o]).transferLost c cur).raiseError c
        (.busTransfer c.id (c.chunk - 1) r)) ∨
    (∃ resp, s.nextOutcome = some (.response resp) ∧ resp.length = wire.length ∧
      s.pollTransfer c cur wire k =
        k resp ((s.afterOutcome.record [.outcome c.id (.response resp)]).transferLanded c wire)) := by
  cases ho : s.nextOutcome with
  | none => exact .inl ⟨rfl, by simp [State.pollTransfer, ho]⟩
  | some o =>
    cases o with
    | fail => exact .inr (.inl ⟨.fail, none, rfl, .inl ⟨rfl, rfl⟩, by simp [State.pollTransfer, ho, State.answerTransfer]⟩)
    | response resp =>
      by_cases hl : resp.length = wire.length
      · exact .inr (.inr ⟨resp, rfl, hl, by simp [State.pollTransfer, ho, State.answerTransfer, hl]⟩)
      · exact .inr (.inl ⟨.response resp, some resp.length, rfl, .inr ⟨resp, rfl, hl, rfl⟩,
          by simp [State.pollTransfer, ho, State.answerTransfer, hl]⟩)

theorem State.issueTransfer_cases (s t : State) (c : Context) (wire : Bytes) (p : Phase)
    (h : s.issueTransfer c wire p = .next t) :
    s.bus = .opened ∧ t = (s.record (issueEvents c.id c.op c.dbg c.chunk wire)).putContext
      { c with chunk := c.chunk + 1, phase := p } := by
  unfold State.issueTransfer at h
  split at h
  · next hb => cases h; exact ⟨hb, rfl⟩
  · cases h

/-! ### Initialisation -/

@[simp] theorem State.afterInitOk_params (s : State) : s.afterInitOk.params = s.params := by
  unfold State.afterInitOk; split <;> rfl

@[simp] theorem State.afterInitOk_contexts (s : State) : s.afterInitOk.contexts = s.contexts := by
  unfold State.afterInitOk; split <;> rfl

@[simp] theorem State.afterInitOk_history (s : State) : s.afterInitOk.history = s.history := by
  unfold State.afterInitOk; split <;> rfl

@[simp] theorem State.afterInitOk_calls (s : State) : s.afterInitOk.calls = s.calls := by
  unfold State.afterInitOk; split <;> rfl

@[simp] theorem State.afterInitOk_port (s : State) : s.afterInitOk.port = s.port := by
  unfold State.afterInitOk; split <;> rfl

@[simp] theorem State.afterInitOk_chip (s : State) : s.afterInitOk.chip = s.chip := by
  unfold State.afterInitOk; split <;> rfl

@[simp] theorem State.afterInitOk_agenda (s : State) : s.afterInitOk.agenda = s.agenda := by
  unfold State.afterInitOk; split <;> rfl

@[simp] theorem State.afterInitOk_answers (s : State) : s.afterInitOk.answers = s.answers := by
  unfold State.afterInitOk; split <;> rfl

@[simp] theorem State.afterInitOk_setterAnswers (s : State) : s.afterInitOk.setterAnswers = s.setterAnswers := by
  unfold State.afterInitOk; split <;> rfl

@[simp] theorem State.afterInitOk_grant (s : State) : s.afterInitOk.grant = s.grant := by
  unfold State.afterInitOk; split <;> rfl

@[simp] theorem State.afterInitOk_draws (s : State) : s.afterInitOk.draws = s.draws := by
  unfold State.afterInitOk; split <;> rfl

/-- A successful call leaves BUS and CFG, or is the last one (R162). -/
theorem State.afterInitOk_bus (s : State) (b : Bus) (cfg : Option BusConfig) (hb : s.bus = b) (hc : s.cfg = cfg) :
    (s.afterInitOk.bus = b ∧ s.afterInitOk.cfg = cfg) ∨
      (s.afterInitOk.bus = .opened ∧ s.afterInitOk.cfg = some busSettings) := by
  unfold State.afterInitOk; split <;> simp [hb, hc]

/-- One initialisation call changes only the block's BUS, CFG and place in the sequence, and tells the history a failure
(R136, R162). -/
theorem State.initialise_cases (s : State) :
    s.initialise.params = s.params ∧ s.initialise.contexts = s.contexts ∧ s.initialise.port = s.port ∧
      s.initialise.chip = s.chip ∧ s.initialise.grant = s.grant ∧
      ((s.nextSetterOk = true ∧ s.initialise.history = s.history ∧
          ((s.initialise.bus = s.bus ∧ s.initialise.cfg = s.cfg) ∨
            (s.initialise.bus = .opened ∧ s.initialise.cfg = some busSettings))) ∨
        (s.nextSetterOk = false ∧ s.initialise.bus = .initFailed ∧ s.initialise.cfg = s.cfg ∧
          s.initialise.history = s.history ++ [.result none (.err .busInit)])) := by
  unfold State.initialise
  cases s.nextSetterOk
  · simp
  · refine ⟨by simp, by simp, by simp, by simp, by simp, .inl ⟨rfl, by simp, ?_⟩⟩
    exact State.afterInitOk_bus _ _ _ (by simp) (by simp)

end Sys2Proof.Machine
end

