-- ==== Sys2Proof/Laws/Read.lean ====
section
/-! SUPPORT. What each phase of a READ does to a state whose youngest context is that READ, under an ID of its own. -/

namespace Sys2Proof.Machine

theorem readPhase_check (c : Context) (s : State) (h : c.phase = .check) : readPhase c s = readCheck c s := by
  simp [readPhase, h]

theorem readPhase_compose (c : Context) (s : State) (h : c.phase = .compose) : readPhase c s = readCompose c s := by
  simp [readPhase, h]

theorem readPhase_xferRead (c : Context) (s : State) (h : c.phase = .xferRead) : readPhase c s = readTransfer c s := by
  simp [readPhase, h]

theorem readCheck_ok (s : State) (c : Context) (n : Int) (h : s.IdFree c.id) (hp : c.phase = .check)
    (hn : c.len = some n) (hv : readInputError c.id c.reqAddr n = none) :
    readPhase c (s.addContext c) = .next (s.addContext { c with phase := .compose }) := by
  simp only [readPhase_check c _ hp, readCheck, withLen_some c n _ hn, hv]
  exact congrArg _ (State.putContext_add s c { c with phase := .compose } h rfl)

theorem readCheck_error (s : State) (c : Context) (n : Int) (e : OpError) (h : s.IdFree c.id) (hp : c.phase = .check)
    (hn : c.len = some n) (hv : readInputError c.id c.reqAddr n = some e) :
    readPhase c (s.addContext c) = .next (s.record [.result (some c.id) (.err e)]) := by
  simp only [readPhase_check c _ hp, readCheck, withLen_some c n _ hn, hv]
  exact congrArg _ (State.finish_add s c c _ h rfl)

theorem readCompose_oversize (s : State) (c : Context) (n : Int) (h : s.IdFree c.id) (hp : c.phase = .compose)
    (hn : c.len = some n) (hl : readTooLong s.params.readOversize n = true) :
    readPhase c (s.addContext c) = .next (s.record [.result (some c.id) (.err (.oversizeRead c.id n))]) := by
  simp only [readPhase_compose c _ hp, readCompose, withLen_some c n _ hn, State.addContext_params, hl, if_true]
  exact congrArg _ (State.finish_add s c c _ h rfl)

/-- The context of a READ whose one transfer is outstanding (R90 XFER_READ). -/
def readIssued (c : Context) (n : Int) : Context :=
  { c with frame := some (compose opcRead c.addr (zeros n.toNat)), chunk := c.chunk + 1, phase := .xferRead }

theorem readCompose_ok (s : State) (c : Context) (n : Int) (h : s.IdFree c.id) (hb : s.bus = .opened)
    (hp : c.phase = .compose) (hn : c.len = some n) (hl : readTooLong s.params.readOversize n = false) :
    readPhase c (s.addContext c) =
      .next ((s.record (.issue c.id c.chunk (compose opcRead c.addr (zeros n.toNat)) ::
        diagEvents c (compose opcRead c.addr (zeros n.toNat)))).addContext (readIssued c n)) := by
  simp only [readPhase_compose c _ hp, readCompose, withLen_some c n _ hn, State.addContext_params, hl,
    Bool.false_eq_true, if_false]
  exact State.issueTransfer_add s c { c with frame := some (compose opcRead c.addr (zeros n.toNat)) } _ _ h rfl hb

theorem readTransfer_response (s : State) (c : Context) (f resp : Bytes) (h : s.IdFree c.id) (hp : c.phase = .xferRead)
    (hop : c.op = .read) (hf : c.frame = some f) (ho : s.nextOutcome = some (.response resp))
    (hl : resp.length = f.length) :
    readPhase c (s.addContext c) =
      .next (s.afterOutcome.record
        [.outcome c.id (.response resp), .result (some c.id) (.okRead (resp.drop headerLen))]) := by
  simp only [readPhase_xferRead c _ hp, readTransfer, withFrame_some c f _ hf,
    State.pollTransfer_response s c f f resp _ ho hl]
  rw [State.finish_add _ _ _ _ (by simpa [State.IdFree] using h) rfl]
  simp [State.transferLanded, hop, State.record_record]

theorem readTransfer_failure (s : State) (c : Context) (f : Bytes) (o : BusOutcome) (r : Option Nat)
    (h : s.IdFree c.id) (hp : c.phase = .xferRead) (hop : c.op = .read) (hf : c.frame = some f)
    (ho : s.nextOutcome = some o)
    (hfail : (o = .fail ∧ r = none) ∨ ∃ resp, o = .response resp ∧ resp.length ≠ f.length ∧ r = some resp.length) :
    readPhase c (s.addContext c) =
      .next (s.afterOutcome.record
        [.outcome c.id o, .result (some c.id) (.err (.busTransfer c.id (c.chunk - 1) r))]) := by
  simp only [readPhase_xferRead c _ hp, readTransfer, withFrame_some c f _ hf,
    State.pollTransfer_failure s c f f _ o r h ho hfail]
  simp [State.transferLost, hop, State.record_record]

theorem readTransfer_silent (s : State) (c : Context) (f : Bytes) (hp : c.phase = .xferRead) (hf : c.frame = some f)
    (ho : s.nextOutcome = none) : readPhase c s = .next s.afterOutcome := by
  simp [readPhase_xferRead c _ hp, readTransfer, withFrame_some c f _ hf, State.pollTransfer, ho]

/-- R90 from CHECK to the outstanding transfer: two phases. -/
theorem read_to_issue (s : State) (c : Context) (n : Int) (b : Nat) (h : s.IdFree c.id) (hb : s.bus = .opened)
    (hp : c.phase = .check) (hn : c.len = some n) (hv : readInputError c.id c.reqAddr n = none)
    (hl : readTooLong s.params.readOversize n = false) :
    runPhases readPhase c.id (b + 2) (s.addContext c) =
      runPhases readPhase c.id b
        ((s.record (issueEvents c.id c.op c.dbg c.chunk (compose opcRead c.addr (zeros n.toNat)))).addContext
          (readIssued c n)) := by
  rw [runPhases_add readPhase c.id (b + 1) s _ c rfl h (readCheck_ok s c n h hp hn hv),
    runPhases_add readPhase c.id b s _ { c with phase := .compose } rfl h
      (readCompose_ok s { c with phase := .compose } n h hb rfl hn hl)]
  rfl

/-- R90, R92: the outstanding transfer answered at the next poll. -/
theorem read_answered (s : State) (c : Context) (n : Int) (b : Nat) (resp : Bytes) (rest : List (Option BusOutcome))
    (h : s.IdFree c.id) (hop : c.op = .read) (ha : s.answers = some (.response resp) :: rest)
    (hl : resp.length = n.toNat + 3) :
    runPhases readPhase c.id (b + 1) (s.addContext (readIssued c n)) =
      .next ({ s with answers := rest }.record
        [.outcome c.id (.response resp), .result (some c.id) (.okRead (resp.drop headerLen))]) := by
  have hp := readTransfer_response s (readIssued c n) _ resp h rfl hop rfl (s.nextOutcome_cons _ rest ha)
    (by simp [hl])
  rw [s.afterOutcome_cons _ rest ha] at hp
  exact runPhases_last readPhase c.id b s _ (readIssued c n) rfl h hp h

/-- R90, R134: the outstanding transfer failed at the next poll. -/
theorem read_failed (s : State) (c : Context) (n : Int) (b : Nat) (o : BusOutcome) (r : Option Nat)
    (rest : List (Option BusOutcome)) (h : s.IdFree c.id) (hop : c.op = .read) (ha : s.answers = some o :: rest)
    (hf : (o = .fail ∧ r = none) ∨ ∃ resp, o = .response resp ∧ resp.length ≠ n.toNat + 3 ∧ r = some resp.length) :
    runPhases readPhase c.id (b + 1) (s.addContext (readIssued c n)) =
      .next ({ s with answers := rest }.record
        [.outcome c.id o, .result (some c.id) (.err (.busTransfer c.id c.chunk r))]) := by
  have hp := readTransfer_failure s (readIssued c n) _ o r h rfl hop rfl (s.nextOutcome_cons _ rest ha)
    (by simpa using hf)
  rw [s.afterOutcome_cons _ rest ha] at hp
  exact runPhases_last readPhase c.id b s _ (readIssued c n) rfl h hp h

/-- Everything one phase of a READ can do, when it has a next state. -/
theorem readPhase_cases (c : Context) (s t : State) (h : readPhase c s = .next t) :
    (∃ n e, c.phase = .check ∧ c.len = some n ∧ readInputError c.id c.reqAddr n = some e ∧ t = s.raiseError c e) ∨
    (∃ n, c.phase = .check ∧ c.len = some n ∧ readInputError c.id c.reqAddr n = none ∧
      t = s.putContext { c with phase := .compose }) ∨
    (∃ n, c.phase = .compose ∧ c.len = some n ∧ readTooLong s.params.readOversize n = true ∧
      t = s.raiseError c (.oversizeRead c.id n)) ∨
    (∃ n, c.phase = .compose ∧ c.len = some n ∧ readTooLong s.params.readOversize n = false ∧ s.bus = .opened ∧
      t = (s.record (issueEvents c.id c.op c.dbg c.chunk (compose opcRead c.addr (zeros n.toNat)))).putContext
        (readIssued c n)) ∨
    (∃ f, c.phase = .xferRead ∧ c.frame = some f ∧
      t = s.pollTransfer c f f fun resp u => u.finish c (.okRead (resp.drop headerLen))) := by
  cases hp : c.phase with
  | check =>
    rw [readPhase_check c s hp, readCheck, withLen] at h
    split at h
    · next n hn =>
      cases h
      cases hv : readInputError c.id c.reqAddr n with
      | none => exact .inr (.inl ⟨n, rfl, hn, hv, rfl⟩)
      | some e => exact .inl ⟨n, e, rfl, hn, hv, rfl⟩
    · cases h
  | compose =>
    rw [readPhase_compose c s hp, readCompose, withLen] at h
    split at h
    · next n hn =>
      by_cases hl : readTooLong s.params.readOversize n = true
      · rw [if_pos hl] at h; cases h
        exact .inr (.inr (.inl ⟨n, rfl, hn, hl, rfl⟩))
      · rw [if_neg hl] at h
        obtain ⟨hb, rfl⟩ := State.issueTransfer_cases _ _ _ _ _ h
        exact .inr (.inr (.inr (.inl ⟨n, rfl, hn, by simpa using hl, hb, rfl⟩)))
    · cases h
  | xferRead =>
    rw [readPhase_xferRead c s hp, readTransfer, withFrame] at h
    split at h
    · next f hf => cases h; exact .inr (.inr (.inr (.inr ⟨f, rfl, hf, rfl⟩)))
    · cases h
  | decide => simp [readPhase, hp] at h
  | xferFull => simp [readPhase, hp] at h
  | advance => simp [readPhase, hp] at h
  | xferFinal => simp [readPhase, hp] at h
  | done => simp [readPhase, hp] at h

end Sys2Proof.Machine
end

