-- ==== Sys2Proof/Laws/Write.lean ====
section
/-! SUPPORT. What each phase of a WRITE does to a state whose youngest context is that WRITE, under an ID of its own. -/

namespace Sys2Proof.Machine

theorem writePhase_check (c : Context) (s : State) (h : c.phase = .check) : writePhase c s = writeCheck c s := by
  simp [writePhase, h]

theorem writePhase_compose (c : Context) (s : State) (h : c.phase = .compose) : writePhase c s = writeCompose c s := by
  simp [writePhase, h]

theorem writePhase_decide (c : Context) (s : State) (h : c.phase = .decide) : writePhase c s = writeDecide c s := by
  simp [writePhase, h]

theorem writePhase_xferFull (c : Context) (s : State) (h : c.phase = .xferFull) : writePhase c s = writeFull c s := by
  simp [writePhase, h]

theorem writePhase_advance (c : Context) (s : State) (h : c.phase = .advance) : writePhase c s = writeAdvance c s := by
  simp [writePhase, h]

theorem writePhase_xferFinal (c : Context) (s : State) (h : c.phase = .xferFinal) : writePhase c s = writeFinal c s := by
  simp [writePhase, h]

theorem writeCheck_ok (s : State) (c : Context) (d : Bytes) (h : s.IdFree c.id) (hp : c.phase = .check)
    (hd : c.data = some d) (hv : writeInputError s.params c.id c.reqAddr d = none) :
    writePhase c (s.addContext c) = .next (s.addContext { c with phase := .compose }) := by
  simp only [writePhase_check c _ hp, writeCheck, withData_some c d _ hd, State.addContext_params, hv]
  exact congrArg _ (State.putContext_add s c { c with phase := .compose } h rfl)

theorem writeCheck_error (s : State) (c : Context) (d : Bytes) (e : OpError) (h : s.IdFree c.id) (hp : c.phase = .check)
    (hd : c.data = some d) (hv : writeInputError s.params c.id c.reqAddr d = some e) :
    writePhase c (s.addContext c) = .next (s.record [.result (some c.id) (.err e)]) := by
  simp only [writePhase_check c _ hp, writeCheck, withData_some c d _ hd, State.addContext_params, hv]
  exact congrArg _ (State.finish_add s c c _ h rfl)

theorem writeCompose_ok (s : State) (c : Context) (d : Bytes) (h : s.IdFree c.id) (hp : c.phase = .compose)
    (hd : c.data = some d) :
    writePhase c (s.addContext c) =
      .next (s.addContext { c with frame := some (compose opcWrite c.addr d), phase := .decide }) := by
  simp only [writePhase_compose c _ hp, writeCompose, withData_some c d _ hd]
  exact congrArg _ (State.putContext_add s c { c with frame := some (compose opcWrite c.addr d), phase := .decide } h rfl)

/-- The context of a WRITE whose next transfer is outstanding in phase `p`. -/
def writeIssued (c : Context) (p : Phase) : Context := { c with chunk := c.chunk + 1, phase := p }

theorem writeDecide_final (s : State) (c : Context) (f : Bytes) (h : s.IdFree c.id) (hb : s.bus = .opened)
    (hp : c.phase = .decide) (hf : c.frame = some f) (hl : f.length < 4096) :
    writePhase c (s.addContext c) =
      .next ((s.record (.issue c.id c.chunk f :: diagEvents c f)).addContext (writeIssued c .xferFinal)) := by
  simp only [writePhase_decide c _ hp, writeDecide, withFrame_some c f _ hf, hl, if_true]
  exact State.issueTransfer_add s c c _ _ h rfl hb

theorem writeDecide_full (s : State) (c : Context) (f : Bytes) (h : s.IdFree c.id) (hb : s.bus = .opened)
    (hp : c.phase = .decide) (hf : c.frame = some f) (hl : ¬f.length < 4096) :
    writePhase c (s.addContext c) =
      .next ((s.record (.issue c.id c.chunk (fullChunk f) :: diagEvents c (fullChunk f))).addContext
        (writeIssued c .xferFull)) := by
  simp only [writePhase_decide c _ hp, writeDecide, withFrame_some c f _ hf, hl, if_false]
  exact State.issueTransfer_add s c c _ _ h rfl hb

theorem writeFull_response (s : State) (c : Context) (f resp : Bytes) (h : s.IdFree c.id) (hp : c.phase = .xferFull)
    (hop : c.op = .write) (hf : c.frame = some f) (ho : s.nextOutcome = some (.response resp))
    (hl : resp.length = (fullChunk f).length) :
    writePhase c (s.addContext c) =
      .next (({ s.afterOutcome.record [.outcome c.id (.response resp)] with
        chip := memWrite s.chip c.addr (framePayload (fullChunk f)) }).addContext { c with phase := .advance }) := by
  simp only [writePhase_xferFull c _ hp, writeFull, withFrame_some c f _ hf, State.pollTransfer_response s c f _ resp _ ho hl]
  rw [State.putContext_add _ c { c with phase := .advance } (by simpa [State.IdFree] using h) rfl]
  simp [State.transferLanded, hop]

theorem writeFull_failure (s : State) (c : Context) (f : Bytes) (o : BusOutcome) (r : Option Nat)
    (h : s.IdFree c.id) (hp : c.phase = .xferFull) (hop : c.op = .write) (hf : c.frame = some f)
    (ho : s.nextOutcome = some o)
    (hfail : (o = .fail ∧ r = none) ∨
      ∃ resp, o = .response resp ∧ resp.length ≠ (fullChunk f).length ∧ r = some resp.length) :
    writePhase c (s.addContext c) =
      .next (({ s.afterOutcome with chip := memLose s.chip c.addr (framePayload f).length }).record
        [.outcome c.id o, .result (some c.id) (.err (.busTransfer c.id (c.chunk - 1) r))]) := by
  simp only [writePhase_xferFull c _ hp, writeFull, withFrame_some c f _ hf, State.pollTransfer_failure s c f _ _ o r h ho hfail]
  simp [State.transferLost, hop, State.record]

theorem writeFinal_response (s : State) (c : Context) (d f resp : Bytes) (h : s.IdFree c.id) (hp : c.phase = .xferFinal)
    (hop : c.op = .write) (hd : c.data = some d) (hf : c.frame = some f) (ho : s.nextOutcome = some (.response resp))
    (hl : resp.length = f.length) :
    writePhase c (s.addContext c) =
      .next (({ s.afterOutcome with chip := memWrite s.chip c.addr (framePayload f) }).record
        [.outcome c.id (.response resp), .result (some c.id) (.okWrite d)]) := by
  simp only [writePhase_xferFinal c _ hp, writeFinal, withData_some c d _ hd, withFrame_some c f _ hf,
    State.pollTransfer_response s c f f resp _ ho hl]
  rw [State.finish_add _ _ _ _ (by simpa [State.IdFree] using h) rfl]
  simp [State.transferLanded, hop, State.record]

theorem writeFinal_failure (s : State) (c : Context) (d f : Bytes) (o : BusOutcome) (r : Option Nat)
    (h : s.IdFree c.id) (hp : c.phase = .xferFinal) (hop : c.op = .write) (hd : c.data = some d) (hf : c.frame = some f)
    (ho : s.nextOutcome = some o)
    (hfail : (o = .fail ∧ r = none) ∨ ∃ resp, o = .response resp ∧ resp.length ≠ f.length ∧ r = some resp.length) :
    writePhase c (s.addContext c) =
      .next (({ s.afterOutcome with chip := memLose s.chip c.addr (framePayload f).length }).record
        [.outcome c.id o, .result (some c.id) (.err (.busTransfer c.id (c.chunk - 1) r))]) := by
  simp only [writePhase_xferFinal c _ hp, writeFinal, withData_some c d _ hd, withFrame_some c f _ hf,
    State.pollTransfer_failure s c f _ _ o r h ho hfail]
  simp [State.transferLost, hop, State.record]

theorem writeAdvance_ok (s : State) (c : Context) (f : Bytes) (a : Addr) (h : s.IdFree c.id) (hp : c.phase = .advance)
    (hf : c.frame = some f) (ha : strideNext s.params.addrOverflow c.addr = some a) :
    writePhase c (s.addContext c) =
      .next (s.addContext { c with addr := a, frame := some (compose opcWrite a (remainder f)), phase := .decide }) := by
  simp only [writePhase_advance c _ hp, writeAdvance, withFrame_some c f _ hf, State.addContext_params, ha]
  exact congrArg _ (State.putContext_add s c
    { c with addr := a, frame := some (compose opcWrite a (remainder f)), phase := .decide } h rfl)

theorem writeAdvance_overflow (s : State) (c : Context) (f : Bytes) (h : s.IdFree c.id) (hp : c.phase = .advance)
    (hf : c.frame = some f) (ha : strideNext s.params.addrOverflow c.addr = none) :
    writePhase c (s.addContext c) =
      .next (s.record [.result (some c.id) (.err (.addressOverflow c.id c.chunk c.addr))]) := by
  simp only [writePhase_advance c _ hp, writeAdvance, withFrame_some c f _ hf, State.addContext_params, ha]
  exact congrArg _ (State.finish_add s c c _ h rfl)

/-- R100 CHECK and COMPOSE: two phases. -/
theorem write_to_decide (s : State) (c : Context) (d : Bytes) (b : Nat) (h : s.IdFree c.id) (hp : c.phase = .check)
    (hd : c.data = some d) (hv : writeInputError s.params c.id c.reqAddr d = none) :
    runPhases writePhase c.id (b + 2) (s.addContext c) =
      runPhases writePhase c.id b
        (s.addContext { c with frame := some (compose opcWrite c.addr d), phase := .decide }) := by
  rw [runPhases_add writePhase c.id (b + 1) s _ c rfl h (writeCheck_ok s c d h hp hd hv),
    runPhases_add writePhase c.id b s _ { c with phase := .compose } rfl h
      (writeCompose_ok s { c with phase := .compose } d h rfl hd)]

/-- R107, R108: the final transfer issued and answered at the next poll: two phases. -/
theorem write_final_answered (s : State) (c : Context) (d f resp : Bytes) (b : Nat) (rest : List (Option BusOutcome))
    (h : s.IdFree c.id) (hb : s.bus = .opened) (hp : c.phase = .decide) (hop : c.op = .write) (hd : c.data = some d)
    (hf : c.frame = some f) (hl : f.length < 4096) (ha : s.answers = some (.response resp) :: rest)
    (hr : resp.length = f.length) :
    runPhases writePhase c.id (b + 2) (s.addContext c) =
      .next (({ s with answers := rest, chip := memWrite s.chip c.addr (framePayload f) }).record
        (transferEvents c.id .write c.dbg c.chunk f (.response resp) ++ [Event.result (some c.id) (.okWrite d)])) := by
  have hp' := writeFinal_response (s.record (issueEvents c.id c.op c.dbg c.chunk f)) (writeIssued c .xferFinal) d f resp h
    rfl hop hd hf (State.nextOutcome_cons (s.record (issueEvents c.id c.op c.dbg c.chunk f)) _ rest ha) hr
  rw [State.afterOutcome_cons (s.record (issueEvents c.id c.op c.dbg c.chunk f)) _ rest ha] at hp'
  rw [runPhases_add writePhase c.id (b + 1) s _ c rfl h (writeDecide_final s c f h hb hp hf hl), record_issue,
    runPhases_last writePhase c.id b (s.record (issueEvents c.id c.op c.dbg c.chunk f)) _ (writeIssued c .xferFinal) rfl h hp' h]
  simp [State.record, transferEvents, writeIssued, hop]

/-- The same transfer failed. -/
theorem write_final_failed (s : State) (c : Context) (d f : Bytes) (b : Nat) (o : BusOutcome) (r : Option Nat)
    (rest : List (Option BusOutcome)) (h : s.IdFree c.id) (hb : s.bus = .opened) (hp : c.phase = .decide)
    (hop : c.op = .write) (hd : c.data = some d) (hf : c.frame = some f) (hl : f.length < 4096)
    (ha : s.answers = some o :: rest)
    (hr : (o = .fail ∧ r = none) ∨ ∃ resp, o = .response resp ∧ resp.length ≠ f.length ∧ r = some resp.length) :
    runPhases writePhase c.id (b + 2) (s.addContext c) =
      .next (({ s with answers := rest, chip := memLose s.chip c.addr (framePayload f).length }).record
        (transferEvents c.id .write c.dbg c.chunk f o ++
          [Event.result (some c.id) (.err (.busTransfer c.id c.chunk r))])) := by
  have hp' := writeFinal_failure (s.record (issueEvents c.id c.op c.dbg c.chunk f)) (writeIssued c .xferFinal) d f o r h
    rfl hop hd hf (State.nextOutcome_cons (s.record (issueEvents c.id c.op c.dbg c.chunk f)) _ rest ha) hr
  rw [State.afterOutcome_cons (s.record (issueEvents c.id c.op c.dbg c.chunk f)) _ rest ha] at hp'
  rw [runPhases_add writePhase c.id (b + 1) s _ c rfl h (writeDecide_final s c f h hb hp hf hl), record_issue,
    runPhases_last writePhase c.id b (s.record (issueEvents c.id c.op c.dbg c.chunk f)) _ (writeIssued c .xferFinal) rfl h hp' h]
  simp [State.record, transferEvents, writeIssued, hop]

/-- R104: a full chunk issued and answered at the next poll: two phases, then ADVANCE. -/
theorem write_full_answered (s : State) (c : Context) (f resp : Bytes) (b : Nat) (rest : List (Option BusOutcome))
    (h : s.IdFree c.id) (hb : s.bus = .opened) (hp : c.phase = .decide) (hop : c.op = .write)
    (hf : c.frame = some f) (hl : ¬f.length < 4096) (ha : s.answers = some (.response resp) :: rest)
    (hr : resp.length = (fullChunk f).length) :
    runPhases writePhase c.id (b + 2) (s.addContext c) =
      runPhases writePhase c.id b
        ((({ s with answers := rest, chip := memWrite s.chip c.addr (framePayload (fullChunk f)) }).record
          (transferEvents c.id .write c.dbg c.chunk (fullChunk f) (.response resp))).addContext
            { c with chunk := c.chunk + 1, phase := .advance }) := by
  have hp' := writeFull_response (s.record (issueEvents c.id c.op c.dbg c.chunk (fullChunk f))) (writeIssued c .xferFull) f
    resp h rfl hop hf (State.nextOutcome_cons (s.record (issueEvents c.id c.op c.dbg c.chunk (fullChunk f))) _ rest ha) hr
  rw [State.afterOutcome_cons (s.record (issueEvents c.id c.op c.dbg c.chunk (fullChunk f))) _ rest ha] at hp'
  rw [runPhases_add writePhase c.id (b + 1) s _ c rfl h (writeDecide_full s c f h hb hp hf hl), record_issue,
    runPhases_add writePhase c.id b (s.record (issueEvents c.id c.op c.dbg c.chunk (fullChunk f))) _ (writeIssued c .xferFull) rfl h hp']
  simp [State.record, State.addContext, transferEvents, writeIssued, hop]

/-- The same transfer failed. -/
theorem write_full_failed (s : State) (c : Context) (f : Bytes) (b : Nat) (o : BusOutcome) (r : Option Nat)
    (rest : List (Option BusOutcome)) (h : s.IdFree c.id) (hb : s.bus = .opened) (hp : c.phase = .decide)
    (hop : c.op = .write) (hf : c.frame = some f) (hl : ¬f.length < 4096) (ha : s.answers = some o :: rest)
    (hr : (o = .fail ∧ r = none) ∨
      ∃ resp, o = .response resp ∧ resp.length ≠ (fullChunk f).length ∧ r = some resp.length) :
    runPhases writePhase c.id (b + 2) (s.addContext c) =
      .next (({ s with answers := rest, chip := memLose s.chip c.addr (framePayload f).length }).record
        (transferEvents c.id .write c.dbg c.chunk (fullChunk f) o ++
          [Event.result (some c.id) (.err (.busTransfer c.id c.chunk r))])) := by
  have hp' := writeFull_failure (s.record (issueEvents c.id c.op c.dbg c.chunk (fullChunk f))) (writeIssued c .xferFull) f
    o r h rfl hop hf (State.nextOutcome_cons (s.record (issueEvents c.id c.op c.dbg c.chunk (fullChunk f))) _ rest ha) hr
  rw [State.afterOutcome_cons (s.record (issueEvents c.id c.op c.dbg c.chunk (fullChunk f))) _ rest ha] at hp'
  rw [runPhases_add writePhase c.id (b + 1) s _ c rfl h (writeDecide_full s c f h hb hp hf hl), record_issue,
    runPhases_last writePhase c.id b (s.record (issueEvents c.id c.op c.dbg c.chunk (fullChunk f))) _ (writeIssued c .xferFull) rfl h hp' h]
  simp [State.record, transferEvents, writeIssued, hop]

/-- Everything one phase of a WRITE can do, when it has a next state. -/
theorem writePhase_cases (c : Context) (s t : State) (h : writePhase c s = .next t) :
    (∃ d e, c.phase = .check ∧ c.data = some d ∧ writeInputError s.params c.id c.reqAddr d = some e ∧
      t = s.raiseError c e) ∨
    (∃ d, c.phase = .check ∧ c.data = some d ∧ writeInputError s.params c.id c.reqAddr d = none ∧
      t = s.putContext { c with phase := .compose }) ∨
    (∃ d, c.phase = .compose ∧ c.data = some d ∧
      t = s.putContext { c with frame := some (compose opcWrite c.addr d), phase := .decide }) ∨
    (∃ f, c.phase = .decide ∧ c.frame = some f ∧ f.length < transactionLimit ∧ s.bus = .opened ∧
      t = (s.record (issueEvents c.id c.op c.dbg c.chunk f)).putContext (writeIssued c .xferFinal)) ∨
    (∃ f, c.phase = .decide ∧ c.frame = some f ∧ ¬f.length < transactionLimit ∧ s.bus = .opened ∧
      t = (s.record (issueEvents c.id c.op c.dbg c.chunk (fullChunk f))).putContext (writeIssued c .xferFull)) ∨
    (∃ f, c.phase = .xferFull ∧ c.frame = some f ∧
      t = s.pollTransfer c f (fullChunk f) fun _ u => u.putContext { c with phase := .advance }) ∨
    (∃ f, c.phase = .advance ∧ c.frame = some f ∧ strideNext s.params.addrOverflow c.addr = none ∧
      t = s.raiseError c (.addressOverflow c.id c.chunk c.addr)) ∨
    (∃ f a, c.phase = .advance ∧ c.frame = some f ∧ strideNext s.params.addrOverflow c.addr = some a ∧
      t = s.putContext { c with addr := a, frame := some (compose opcWrite a (remainder f)), phase := .decide }) ∨
    (∃ d f, c.phase = .xferFinal ∧ c.data = some d ∧ c.frame = some f ∧
      t = s.pollTransfer c f f fun _ u => u.finish c (.okWrite d)) := by
  cases hp : c.phase with
  | check =>
    rw [writePhase_check c s hp, writeCheck, withData] at h
    split at h
    · next d hd =>
      cases h
      cases hv : writeInputError s.params c.id c.reqAddr d with
      | none => exact .inr (.inl ⟨d, rfl, hd, hv, rfl⟩)
      | some e => exact .inl ⟨d, e, rfl, hd, hv, rfl⟩
    · cases h
  | compose =>
    rw [writePhase_compose c s hp, writeCompose, withData] at h
    split at h
    · next d hd => cases h; exact .inr (.inr (.inl ⟨d, rfl, hd, rfl⟩))
    · cases h
  | decide =>
    rw [writePhase_decide c s hp, writeDecide, withFrame] at h
    split at h
    · next f hf =>
      by_cases hl : f.length < transactionLimit
      · rw [if_pos hl] at h
        obtain ⟨hb, rfl⟩ := State.issueTransfer_cases _ _ _ _ _ h
        exact .inr (.inr (.inr (.inl ⟨f, rfl, hf, hl, hb, rfl⟩)))
      · rw [if_neg hl] at h
        obtain ⟨hb, rfl⟩ := State.issueTransfer_cases _ _ _ _ _ h
        exact .inr (.inr (.inr (.inr (.inl ⟨f, rfl, hf, hl, hb, rfl⟩))))
    · cases h
  | xferFull =>
    rw [writePhase_xferFull c s hp, writeFull, withFrame] at h
    split at h
    · next f hf => cases h; exact .inr (.inr (.inr (.inr (.inr (.inl ⟨f, rfl, hf, rfl⟩)))))
    · cases h
  | advance =>
    rw [writePhase_advance c s hp, writeAdvance, withFrame] at h
    split at h
    · next f hf =>
      rcases Option.eq_none_or_eq_some (strideNext s.params.addrOverflow c.addr) with hv | ⟨a, hv⟩
      · simp only [hv] at h; cases h
        exact .inr (.inr (.inr (.inr (.inr (.inr (.inl ⟨f, rfl, hf, hv, rfl⟩))))))
      · simp only [hv] at h; cases h
        exact .inr (.inr (.inr (.inr (.inr (.inr (.inr (.inl ⟨f, a, rfl, hf, hv, rfl⟩)))))))
    · cases h
  | xferFinal =>
    rw [writePhase_xferFinal c s hp, writeFinal, withData] at h
    split at h
    · next d hd =>
      rw [withFrame] at h
      split at h
      · next f hf => cases h; exact .inr (.inr (.inr (.inr (.inr (.inr (.inr (.inr ⟨d, f, rfl, hd, hf, rfl⟩)))))))
      · cases h
    · cases h
  | xferRead => simp [writePhase, hp] at h
  | done => simp [writePhase, hp] at h

end Sys2Proof.Machine
end

