-- ==== Sys2Proof/Laws/Frame.lean ====
section
/-! SUPPORT. What a phase, a run of phases and a command leave unchanged, said once. -/

namespace Sys2Proof.Machine

/-- What one context's move makes of the list of live contexts: nothing, its own context rewritten, or its own context
retired. -/
def contextsMove (id : Nat) (cs ds : List Context) : Prop :=
  ds = cs ∨ (∃ c, c.id = id ∧ ds = cs.map fun d => if d.id = id then c else d) ∨ ds = cs.filter fun d => d.id != id

/-- The frame of a move of the context `id`: nothing outside it changes but the history, which grows, the bus answers, which
are consumed, the free draws and the chip view. -/
structure MoveFrame (id : Nat) (s t : State) : Prop where
  surroundings : sameSurroundings s t
  port : t.port = s.port
  history : ∃ es, t.history = s.history ++ es
  answers : ∃ n, t.answers = s.answers.drop n
  contexts : contextsMove id s.contexts t.contexts

theorem sameSurroundings_refl (s : State) : sameSurroundings s s := ⟨rfl, rfl, rfl, rfl, rfl, rfl, rfl, rfl⟩

theorem sameSurroundings_trans (s t u : State) (h : sameSurroundings s t) (h' : sameSurroundings t u) :
    sameSurroundings s u := by
  obtain ⟨h1, h2, h3, h4, h5, h6, h7, h8⟩ := h
  obtain ⟨g1, g2, g3, g4, g5, g6, g7, g8⟩ := h'
  exact ⟨g1.trans h1, g2.trans h2, g3.trans h3, g4.trans h4, g5.trans h5, g6.trans h6, g7.trans h7, g8.trans h8⟩

theorem map_put_put (cs : List Context) (id : Nat) (c d : Context) (hc : c.id = id) :
    ((cs.map fun e => if e.id = id then c else e).map fun e => if e.id = id then d else e) =
      cs.map fun e => if e.id = id then d else e := by
  rw [List.map_map]
  refine List.map_congr_left fun e _ => ?_
  by_cases h : e.id = id <;> simp [h, hc]

theorem filter_put (cs : List Context) (id : Nat) (c : Context) (hc : c.id = id) :
    (cs.map fun e => if e.id = id then c else e).filter (fun e => e.id != id) = cs.filter fun e => e.id != id := by
  induction cs with
  | nil => rfl
  | cons e cs ih => by_cases h : e.id = id <;> simp [h, hc, ih]

theorem put_filter (cs : List Context) (id : Nat) (c : Context) :
    (cs.filter fun e => e.id != id).map (fun e => if e.id = id then c else e) = cs.filter fun e => e.id != id := by
  conv_rhs => rw [← List.map_id (cs.filter fun e => e.id != id)]
  refine List.map_congr_left fun e he => ?_
  have := (List.mem_filter.1 he).2
  simp at this
  simp [this]

theorem contextsMove_trans (id : Nat) (cs ds es : List Context) (h : contextsMove id cs ds)
    (h' : contextsMove id ds es) : contextsMove id cs es := by
  rcases h with rfl | ⟨c, hc, rfl⟩ | rfl
  · exact h'
  · rcases h' with rfl | ⟨d, hd, rfl⟩ | rfl
    · exact .inr (.inl ⟨c, hc, rfl⟩)
    · exact .inr (.inl ⟨d, hd, map_put_put cs id c d hc⟩)
    · exact .inr (.inr (filter_put cs id c hc))
  · rcases h' with rfl | ⟨d, _, rfl⟩ | rfl
    · exact .inr (.inr rfl)
    · exact .inr (.inr (put_filter cs id d))
    · exact .inr (.inr (by rw [List.filter_filter]; simp))

theorem MoveFrame.refl (id : Nat) (s : State) : MoveFrame id s s :=
  ⟨sameSurroundings_refl s, rfl, ⟨[], by simp⟩, ⟨0, rfl⟩, .inl rfl⟩

theorem MoveFrame.trans (id : Nat) (s t u : State) (h : MoveFrame id s t) (h' : MoveFrame id t u) :
    MoveFrame id s u := by
  obtain ⟨es, he⟩ := h.history
  obtain ⟨fs, hf⟩ := h'.history
  obtain ⟨m, hm⟩ := h.answers
  obtain ⟨n, hn⟩ := h'.answers
  exact ⟨sameSurroundings_trans _ _ _ h.surroundings h'.surroundings, h'.port.trans h.port,
    ⟨es ++ fs, by rw [hf, he, List.append_assoc]⟩, ⟨m + n, by rw [hn, hm, List.drop_drop]⟩,
    contextsMove_trans _ _ _ _ h.contexts h'.contexts⟩

/-! ### The updates a phase is made of -/

theorem MoveFrame.record (id : Nat) (s : State) (es : List Event) : MoveFrame id s (s.record es) :=
  ⟨sameSurroundings_refl s, rfl, ⟨es, rfl⟩, ⟨0, rfl⟩, .inl rfl⟩

theorem MoveFrame.putContext (s : State) (c : Context) : MoveFrame c.id s (s.putContext c) :=
  ⟨sameSurroundings_refl s, rfl, ⟨[], by simp⟩, ⟨0, rfl⟩, .inr (.inl ⟨c, rfl, rfl⟩)⟩

theorem MoveFrame.finish (s : State) (c : Context) (r : Result) : MoveFrame c.id s (s.finish c r) :=
  ⟨sameSurroundings_refl s, rfl, ⟨_, rfl⟩, ⟨0, rfl⟩, .inr (.inr rfl)⟩

theorem MoveFrame.afterOutcome (id : Nat) (s : State) : MoveFrame id s s.afterOutcome := by
  refine ⟨?_, by simp, ⟨[], by simp⟩, ⟨1, by simp⟩, .inl (by simp)⟩
  simp [sameSurroundings]

theorem MoveFrame.transferLanded (id : Nat) (s : State) (c : Context) (f : Bytes) :
    MoveFrame id s (s.transferLanded c f) := by
  refine ⟨?_, by simp, ⟨[], by simp⟩, ⟨0, by simp⟩, .inl (by simp)⟩
  simp [sameSurroundings]

theorem MoveFrame.transferLost (id : Nat) (s : State) (c : Context) (f : Bytes) :
    MoveFrame id s (s.transferLost c f) := by
  refine ⟨?_, by simp, ⟨[], by simp⟩, ⟨0, by simp⟩, .inl (by simp)⟩
  simp [sameSurroundings]

theorem MoveFrame.pollTransfer (s : State) (c : Context) (cur wire : Bytes) (k : Bytes → State → State)
    (hk : ∀ r u, MoveFrame c.id u (k r u)) : MoveFrame c.id s (s.pollTransfer c cur wire k) := by
  rcases s.pollTransfer_cases c cur wire k with ⟨_, h⟩ | ⟨o, r, _, _, h⟩ | ⟨resp, _, _, h⟩
  · rw [h]; exact MoveFrame.afterOutcome _ s
  · rw [h]
    exact (((MoveFrame.afterOutcome _ s).trans _ _ _ _ (MoveFrame.record _ _ _)).trans _ _ _ _
      (MoveFrame.transferLost _ _ _ _)).trans _ _ _ _ (MoveFrame.finish _ c _)
  · rw [h]
    exact (((MoveFrame.afterOutcome _ s).trans _ _ _ _ (MoveFrame.record _ _ _)).trans _ _ _ _
      (MoveFrame.transferLanded _ _ _ _)).trans _ _ _ _ (hk _ _)

/-- The frame of one phase of a READ. -/
theorem readPhase_frame (c : Context) (s t : State) (h : readPhase c s = .next t) : MoveFrame c.id s t := by
  rcases readPhase_cases c s t h with ⟨n, e, _, _, _, rfl⟩ | ⟨n, _, _, _, rfl⟩ | ⟨n, _, _, _, rfl⟩ |
    ⟨n, _, _, _, _, rfl⟩ | ⟨f, _, _, rfl⟩
  · exact MoveFrame.finish s c _
  · exact MoveFrame.putContext s { c with phase := .compose }
  · exact MoveFrame.finish s c _
  · exact (MoveFrame.record _ s _).trans _ _ _ _ (MoveFrame.putContext _ (readIssued c n))
  · exact MoveFrame.pollTransfer s c f f _ fun r u => MoveFrame.finish u c _

/-- The frame of one phase of a WRITE. -/
theorem writePhase_frame (c : Context) (s t : State) (h : writePhase c s = .next t) : MoveFrame c.id s t := by
  rcases writePhase_cases c s t h with ⟨d, e, _, _, _, rfl⟩ | ⟨d, _, _, _, rfl⟩ | ⟨d, _, _, rfl⟩ |
    ⟨f, _, _, _, _, rfl⟩ | ⟨f, _, _, _, _, rfl⟩ | ⟨f, _, _, rfl⟩ | ⟨f, _, _, _, rfl⟩ | ⟨f, a, _, _, _, rfl⟩ |
    ⟨d, f, _, _, _, rfl⟩
  · exact MoveFrame.finish s c _
  · exact MoveFrame.putContext s { c with phase := .compose }
  · exact MoveFrame.putContext s { c with frame := some (compose opcWrite c.addr d), phase := .decide }
  · exact (MoveFrame.record _ s _).trans _ _ _ _ (MoveFrame.putContext _ (writeIssued c .xferFinal))
  · exact (MoveFrame.record _ s _).trans _ _ _ _ (MoveFrame.putContext _ (writeIssued c .xferFull))
  · exact MoveFrame.pollTransfer s c f _ _ fun _ u => MoveFrame.putContext u { c with phase := .advance }
  · exact MoveFrame.finish s c _
  · exact MoveFrame.putContext s { c with addr := a, frame := some (compose opcWrite a (remainder f)), phase := .decide }
  · exact MoveFrame.pollTransfer s c f f _ fun _ u => MoveFrame.finish u c _

theorem findContext_id (s : State) (id : Nat) (c : Context) (h : s.findContext id = some c) : c.id = id ∧ c ∈ s.contexts := by
  have := List.find?_some h
  exact ⟨by simpa using this, List.mem_of_find?_eq_some h⟩

/-- An induction over a run of phases: what every phase keeps, the run keeps. -/
theorem runPhases_induction (phase : Context → State → Answer) (id : Nat) (P : State → Prop)
    (hstep : ∀ c s t, P s → c ∈ s.contexts → c.id = id → s.findContext id = some c → phase c s = .next t → P t) :
    ∀ (n : Nat) (s t : State), P s → runPhases phase id n s = .next t → P t := by
  intro n
  induction n with
  | zero => intro s t hs h; cases h; exact hs
  | succ n ih =>
    intro s t hs h
    rw [runPhases] at h
    split at h
    · cases h; exact hs
    · next c hc =>
      obtain ⟨hid, hmem⟩ := findContext_id s id c hc
      split at h
      · next s' hs' => exact ih s' t (hstep c s s' hs hmem hid hc hs') h
      · cases h
      · cases h

/-- The frame of a run of phases. -/
theorem runPhases_frame (phase : Context → State → Answer) (id n : Nat) (s t : State)
    (hphase : ∀ c s t, phase c s = .next t → MoveFrame c.id s t) (h : runPhases phase id n s = .next t) :
    MoveFrame id s t := by
  refine runPhases_induction phase id (MoveFrame id s) (fun c u v hu _ hid _ hv => ?_) n s t (MoveFrame.refl id s) h
  exact hu.trans _ _ _ _ (hid ▸ hphase c u v hv)

/-- What a move of a context that is the youngest, under an ID of its own, makes of the list. -/
theorem contextsMove_youngest (cs ds : List Context) (c : Context) (hfree : ∀ e ∈ cs, e.id ≠ c.id)
    (h : contextsMove c.id (cs ++ [c]) ds) : ds = cs ∨ ∃ d, ds = cs ++ [d] ∧ d.id = c.id := by
  rcases h with rfl | ⟨d, hd, rfl⟩ | rfl
  · exact .inr ⟨c, rfl, rfl⟩
  · refine .inr ⟨d, ?_, hd⟩
    rw [List.map_append]
    have : cs.map (fun e => if e.id = c.id then d else e) = cs := by
      conv_rhs => rw [← List.map_id cs]
      exact List.map_congr_left fun e he => by simp [hfree e he]
    simp [this]
  · refine .inl ?_
    rw [List.filter_append]
    have : cs.filter (fun e => e.id != c.id) = cs := List.filter_eq_self.2 fun e he => by simpa using hfree e he
    simp [this]

end Sys2Proof.Machine
end

