-- ==== Sys2Proof/Laws/Step.lean ====
section
/-! SUPPORT. Everything a step can do, said once, and the frame of a phase of either operation. -/

namespace Sys2Proof.Machine

theorem phaseStep_frame (op : Op) (c : Context) (s t : State) (h : phaseStep op c s = .next t) : MoveFrame c.id s t := by
  cases op with
  | read => exact readPhase_frame c s t h
  | write => exact writePhase_frame c s t h

/-- The phase function of a command's operation. -/
def Instr.opOf : Instr → Op
  | .write _ _ _ => .write
  | .read _ _ _ => .read

theorem newContext_id (id : Nat) (i : Instr) : (newContext id i).id = id := by cases i <;> rfl

theorem newContext_op (id : Nat) (i : Instr) : (newContext id i).op = Instr.opOf i := by cases i <;> rfl

theorem exec_command (i : Instr) (s : State) : exec i s = s.command i (phaseStep (Instr.opOf i)) := by cases i <;> rfl

/-- Everything a command can do, when it has a next state: it waits, or its context goes through its phases. -/
theorem exec_cases (i : Instr) (s t : State) (h : exec i s = .next t) :
    t = s.waitAtPort i ∨
    (s.takesCommands ∧
      runPhases (phaseStep (Instr.opOf i)) s.newId s.grant.burst (s.addContext (newContext s.newId i)) = .next t) := by
  rw [exec_command, State.command] at h
  split at h
  · cases h; exact .inl rfl
  · cases h; exact .inl rfl
  · next hb =>
    split at h
    · next hr => exact .inr ⟨⟨hb, hr⟩, h⟩
    · cases h; exact .inl rfl

/-- Everything a step can do, when it has a next state. -/
theorem step_cases (s t : State) (h : step s = .next t) :
    (s.nextTurn = .reset ∧ s.contexts = [] ∧
      t = { s.afterTurn with
            bus := .closed, cfg := none, init := .openHandle, history := [], calls := [], chip := [] }) ∨
    (∃ i, s.nextTurn = .offer i ∧ t = s.afterTurn.waitAtPort i) ∨
    (s.nextTurn ≠ .reset ∧ s.bus = .closed ∧ t = s.afterTurn.initialise) ∨
    (s.nextTurn ≠ .reset ∧ s.bus = .opened ∧ t = s.afterTurn) ∨
    (∃ k tag burst i, s.nextTurn = .accept k tag burst ∧ s.bus = .opened ∧ s.port[k]? = some i ∧
      exec i { s.afterTurn with port := s.port.eraseIdx k, grant := ⟨tag, burst⟩ } = .next t) ∨
    (∃ k burst c, s.nextTurn = .run k burst ∧ s.bus = .opened ∧ s.contexts[k]? = some c ∧
      runPhases (phaseStep c.op) c.id burst s.afterTurn = .next t) := by
  have hreset : s.nextTurn = .reset → s.afterTurn.resetBlock = .next t →
      (s.nextTurn = .reset ∧ s.contexts = [] ∧
        t = { s.afterTurn with
              bus := .closed, cfg := none, init := .openHandle, history := [], calls := [], chip := [] }) := by
    intro hn h
    unfold State.resetBlock at h
    split at h
    · next hc => cases h; exact ⟨hn, by simpa using hc, rfl⟩
    · cases h
  rw [step, State.play, State.afterTurn_bus] at h
  cases hb : s.bus with
  | closed =>
    rw [hb] at h
    cases hn : s.nextTurn with
    | offer i => rw [hn] at h; cases h; exact .inr (.inl ⟨i, rfl, rfl⟩)
    | accept k tag b => rw [hn] at h; cases h; exact .inr (.inr (.inl ⟨by simp, rfl, rfl⟩))
    | run k b => rw [hn] at h; cases h; exact .inr (.inr (.inl ⟨by simp, rfl, rfl⟩))
    | reset => rw [hn] at h; exact .inl (hn ▸ hreset hn h)
  | opened =>
    rw [hb] at h
    cases hn : s.nextTurn with
    | offer i => rw [hn] at h; cases h; exact .inr (.inl ⟨i, rfl, rfl⟩)
    | accept k tag b =>
      rw [hn] at h
      simp only [State.playOpen, State.playAccept, State.afterTurn_port] at h
      split at h
      · cases h; exact .inr (.inr (.inr (.inl ⟨by simp, rfl, rfl⟩)))
      · next i hi => exact .inr (.inr (.inr (.inr (.inl ⟨k, tag, b, i, rfl, rfl, hi, h⟩))))
    | run k b =>
      rw [hn] at h
      simp only [State.playOpen, State.playRun, State.afterTurn_contexts] at h
      split at h
      · cases h; exact .inr (.inr (.inr (.inl ⟨by simp, rfl, rfl⟩)))
      · next c hc =>
        refine .inr (.inr (.inr (.inr (.inr ⟨k, b, c, rfl, rfl, hc, ?_⟩))))
        split at h <;> simp only [*, phaseStep]
    | reset => rw [hn] at h; exact .inl (hn ▸ hreset hn h)
  | initFailed =>
    rw [hb] at h
    cases hn : s.nextTurn with
    | offer i => rw [hn] at h; cases h; exact .inr (.inl ⟨i, rfl, rfl⟩)
    | accept k tag b => rw [hn] at h; cases h
    | run k b => rw [hn] at h; cases h
    | reset => rw [hn] at h; exact .inl (hn ▸ hreset hn h)

end Sys2Proof.Machine
end

