-- ==== Sys2Proof/Laws/Invariant.lean ====
section
/-! SUPPORT. What one phase of a context that fits the invariant does: where it goes, that it still fits, what it issues and
which bytes of the chip view it may change. -/

namespace Sys2Proof.Machine

theorem issuedFrames_append (g h : List Event) : issuedFrames (g ++ h) = issuedFrames g ++ issuedFrames h := by
  simp [issuedFrames]

theorem issuedFrames_issue (id : Nat) (op : Op) (g : Bool) (k : Nat) (f : Bytes) :
    issuedFrames (issueEvents id op g k f) = [f] := by
  cases g <;> rfl

/-- Which bytes of the chip view a WRITE of `d` from address `a` on may change. -/
def onlyTarget (a : Addr) (d : Bytes) (s t : State) : Prop :=
  ∀ x, x < chipBytes → inTarget a d.length x = false → memByte t.chip x = memByte s.chip x

/-- What one phase makes of its own context `c`: nothing, the same command one phase on, or its end. -/
def ownMove (s t : State) (c : Context) : Prop :=
  (t.contexts = s.contexts ∧ c.phase ∈ phaseLeadsTo c.op c.phase) ∨
  (∃ c', c'.id = c.id ∧ c'.op = c.op ∧ c'.reqAddr = c.reqAddr ∧ c'.len = c.len ∧ c'.data = c.data ∧
    c'.Inv s.params ∧ c'.phase ∈ phaseLeadsTo c.op c.phase ∧
    t.contexts = s.contexts.map fun d => if d.id = c.id then c' else d) ∨
  (t.contexts = s.contexts.filter (fun d => d.id != c.id) ∧ Phase.done ∈ phaseLeadsTo c.op c.phase)

/-- What one phase of a context does. -/
structure PhaseMove (s t : State) (c : Context) : Prop where
  move : ownMove s t c
  issues : ∃ es, t.history = s.history ++ es ∧ ∀ f ∈ issuedFrames es, emittable s.params f
  chipWf : memWf s.chip = true → memWf t.chip = true
  chipRead : c.op = .read → t.chip = s.chip
  chipWrite : ∀ d, c.data = some d → onlyTarget (BitVec.ofInt 16 c.reqAddr) d s t

theorem onlyTarget_of_eq (a : Addr) (d : Bytes) (s t : State) (h : t.chip = s.chip) : onlyTarget a d s t :=
  fun x _ _ => by rw [h]

/-! ### READ -/

theorem decode_readFrame (a : Addr) (n : Nat) : ∃ i, decode (compose opcRead a (zeros n)) = .ok i := by
  refine ⟨.read (frameAddr (compose opcRead a (zeros n))) n false, ?_⟩
  simp [decode, viewFrame]

theorem decode_writeFrame (a : Addr) (p : Bytes) : ∃ i, decode (compose opcWrite a p) = .ok i := by
  refine ⟨.write (frameAddr (compose opcWrite a p)) p false, ?_⟩
  simp [decode, viewFrame]

theorem emittable_read (p : Params) (a : Addr) (n : Int) (hn : 0 ≤ n) (h : readTooLong p.readOversize n = false) :
    emittable p (compose opcRead a (zeros n.toNat)) := by
  refine ⟨decode_readFrame _ _, ?_⟩
  unfold readTooLong at h
  split at h
  · left; simp at h ⊢; omega
  · next hp => exact .inr ⟨rfl, hp⟩

theorem emittable_write (p : Params) (a : Addr) (d : Bytes) (h : d.length < 4093) :
    emittable p (compose opcWrite a d) :=
  ⟨decode_writeFrame _ _, .inl (by simp; omega)⟩

/-- What becomes of the chip and the history at a poll that does not go on. -/
theorem readPhase_move (s t : State) (c : Context) (hop : c.op = .read) (hI : c.Inv s.params)
    (h : readPhase c s = .next t) : PhaseMove s t c := by
  simp only [Context.Inv, hop] at hI
  obtain ⟨hdata, haddr, n', hlen, hI⟩ := hI
  have hd : ∀ d, c.data = some d → onlyTarget (BitVec.ofInt 16 c.reqAddr) d s t := by
    intro d hd; rw [hdata] at hd; cases hd
  rcases readPhase_cases c s t h with ⟨n, e, hp, hn, hv, rfl⟩ | ⟨n, hp, hn, hv, rfl⟩ | ⟨n, hp, hn, hv, rfl⟩ |
    ⟨n, hp, hn, hv, hb, rfl⟩ | ⟨f, hp, hf, rfl⟩
  · exact ⟨.inr (.inr ⟨by simp, by simp [hop, hp, phaseLeadsTo]⟩), ⟨_, rfl, by simp [issuedFrames, Event.issuedFrame]⟩,
      fun h => h, fun _ => rfl, hd⟩
  · refine ⟨.inr (.inl ⟨{ c with phase := .compose }, rfl, rfl, rfl, rfl, rfl, ?_, by simp [hop, hp, phaseLeadsTo], rfl⟩),
      ⟨[], by simp, by simp [issuedFrames]⟩, fun h => h, fun _ => rfl, hd⟩
    simp only [readPhaseInv, hp] at hI
    simp only [Context.Inv, hop]
    refine ⟨hdata, haddr, n', hlen, ?_⟩
    rw [hlen] at hn; cases hn
    simp only [readPhaseInv]
    unfold readInputError at hv
    refine ⟨hI.1, hI.2, ?_, ?_⟩
    · by_contra hc
      rw [if_pos (by simpa using hc)] at hv; cases hv
    · by_contra hc
      split at hv
      · cases hv
      · rw [if_pos (by omega)] at hv; cases hv
  · exact ⟨.inr (.inr ⟨by simp, by simp [hop, hp, phaseLeadsTo]⟩), ⟨_, rfl, by simp [issuedFrames, Event.issuedFrame]⟩,
      fun h => h, fun _ => rfl, hd⟩
  · rw [hlen] at hn; cases hn
    simp only [readPhaseInv, hp] at hI
    refine ⟨.inr (.inl ⟨readIssued c n', rfl, rfl, rfl, rfl, rfl, ?_, by simp [hop, hp, phaseLeadsTo, readIssued], rfl⟩),
      ⟨_, rfl, ?_⟩, fun h => h, fun _ => rfl, hd⟩
    · simp only [Context.Inv, readIssued, hop]
      exact ⟨hdata, haddr, n', hlen, by simp only [readPhaseInv]; exact ⟨trivial, by rw [hI.2.1], hI.2.2.1, hI.2.2.2, hv⟩⟩
    · rw [issuedFrames_issue]
      simpa using emittable_read s.params c.addr n' hI.2.2.2 hv
  · rcases s.pollTransfer_cases c f f (fun resp u => u.finish c (.okRead (resp.drop headerLen))) with
      ⟨_, h⟩ | ⟨o, r, _, _, h⟩ | ⟨resp, _, _, h⟩
    · rw [h] at hd ⊢
      exact ⟨.inl ⟨by simp, by simp [hop, hp, phaseLeadsTo]⟩, ⟨[], by simp, by simp [issuedFrames]⟩, by simp, by simp, hd⟩
    · rw [h] at hd ⊢
      exact ⟨.inr (.inr ⟨by simp, by simp [hop, hp, phaseLeadsTo]⟩),
        ⟨_, by simp [State.transferLost, hop]; rfl, by simp [issuedFrames, Event.issuedFrame]⟩,
        by simp [State.transferLost, hop], by simp [State.transferLost, hop], hd⟩
    · rw [h] at hd ⊢
      exact ⟨.inr (.inr ⟨by simp, by simp [hop, hp, phaseLeadsTo]⟩),
        ⟨_, by simp [State.transferLanded, hop]; rfl, by simp [issuedFrames, Event.issuedFrame]⟩,
        by simp [State.transferLanded, hop], by simp [State.transferLanded, hop], hd⟩

/-! ### WRITE -/

theorem chunkAddr_toNat (a : Addr) (k : Nat) : (chunkAddr a k).toNat = (a.toNat + 1000 * k) % 65536 := by
  simp [chunkAddr]

theorem inTarget_iff (a : Addr) (n x : Nat) :
    inTarget a n x = true ↔ (x + 262144 - 4 * a.toNat) % 262144 < 4 * ((n + 3) / 4) := by
  unfold inTarget
  exact decide_eq_true_iff

/-- The target of the rest of a payload from chunk `k` on lies in the target of the whole. -/
theorem inTarget_chunk (a : Addr) (len k n x : Nat) (hk : 4000 * k + n ≤ len)
    (h : inTarget (chunkAddr a k) n x = true) : inTarget a len x = true := by
  rw [inTarget_iff, chunkAddr_toNat] at h
  rw [inTarget_iff]
  have := a.isLt
  omega

theorem inTarget_run (a : Addr) (n x : Nat) (h : cellBase a ≤ x) (h' : x < cellBase a + n) (hx : x < chipBytes) :
    inTarget a n x = true := by
  rw [inTarget_iff]
  simp only [cellBase, chipBytes, addressCount, cellSize] at h h' hx
  omega

theorem memByte_landed (m : Memory) (a : Addr) (k : Nat) (d p : Bytes) (x : Nat) (hp : 4000 * k + p.length ≤ d.length)
    (hx : x < chipBytes) (h : inTarget a d.length x = false) : memByte (memWrite m (chunkAddr a k) p) x = memByte m x := by
  rw [memByte_write _ _ _ _ hx, if_neg]
  rintro ⟨h1, h2⟩
  rw [inTarget_chunk a d.length k p.length x hp (inTarget_run _ _ _ h1 h2 hx)] at h
  cases h

theorem memByte_lost (m : Memory) (a : Addr) (k n : Nat) (d : Bytes) (x : Nat) (hp : 4000 * k + n ≤ d.length)
    (h : inTarget a d.length x = false) : memByte (memLose m (chunkAddr a k) n) x = memByte m x := by
  rw [memByte_lose, if_neg]
  intro h'
  rw [inTarget_chunk a d.length k n x hp h'] at h
  cases h

/-- What a poll of a WRITE's outstanding transfer number `k` does, whatever follows a response. -/
theorem write_poll_move (s : State) (c : Context) (d f wire : Bytes) (k : Nat) (g : Bytes → State → State)
    (hop : c.op = .write) (hd : c.data = some d) (ha : c.addr = chunkAddr (BitVec.ofInt 16 c.reqAddr) k)
    (hk : 4000 * k ≤ d.length) (hf : (framePayload f).length = d.length - 4000 * k)
    (hw : (framePayload wire).length ≤ d.length - 4000 * k) (hl : c.phase ∈ phaseLeadsTo .write c.phase)
    (hdone : Phase.done ∈ phaseLeadsTo .write c.phase)
    (hg : ∀ resp u, u.params = s.params → u.contexts = s.contexts → ownMove s (g resp u) c ∧ (g resp u).chip = u.chip ∧
      ∃ es, (g resp u).history = u.history ++ es ∧ issuedFrames es = []) :
    PhaseMove s (s.pollTransfer c f wire g) c := by
  rcases s.pollTransfer_cases c f wire g with ⟨_, h⟩ | ⟨o, r, _, _, h⟩ | ⟨resp, _, _, h⟩
  · rw [h]
    exact ⟨.inl ⟨by simp, by rw [hop]; exact hl⟩, ⟨[], by simp, by simp [issuedFrames]⟩, by simp, by simp,
      fun _ _ => onlyTarget_of_eq _ _ _ _ (by simp)⟩
  · rw [h]
    refine ⟨.inr (.inr ⟨by simp, by rw [hop]; exact hdone⟩),
      ⟨_, by simp [State.transferLost, hop]; rfl, by simp [issuedFrames, Event.issuedFrame]⟩, ?_, by simp [hop], ?_⟩
    · intro hm; simpa [State.transferLost, hop] using memWf_lose _ _ _ hm
    · intro d' hd' x hx hin
      rw [hd] at hd'; cases hd'
      simp only [State.raiseError_chip, State.transferLost, hop, State.record_chip, State.afterOutcome_chip, ha, hf]
      exact memByte_lost _ _ _ _ d x (by omega) hin
  · rw [h]
    obtain ⟨hm, hc, es, he, hi⟩ :=
      hg resp ((s.afterOutcome.record [.outcome c.id (.response resp)]).transferLanded c wire) (by simp) (by simp)
    · refine ⟨hm, ⟨_, by rw [he]; simp [State.transferLanded, hop]; rfl, ?_⟩, ?_, by simp [hop], ?_⟩
      · rw [show Event.outcome c.id (.response resp) :: es = [Event.outcome c.id (.response resp)] ++ es from rfl,
          issuedFrames_append, hi]
        simp [issuedFrames, Event.issuedFrame]
      · intro hm; rw [hc]; simpa [State.transferLanded, hop] using memWf_write _ _ _ hm
      · intro d' hd' x hx hin
        rw [hd] at hd'; cases hd'
        rw [hc]
        simp only [State.transferLanded, hop, State.record_chip, State.afterOutcome_chip, ha]
        exact memByte_landed _ _ _ d _ x (by omega) hx hin

theorem writePhase_move (s t : State) (c : Context) (hop : c.op = .write) (hI : c.Inv s.params)
    (h : writePhase c s = .next t) : PhaseMove s t c := by
  simp only [Context.Inv, hop] at hI
  obtain ⟨hlen, haddr, d, hd, hI⟩ := hI
  have keep : ∀ t : State, t.chip = s.chip → ∀ d', c.data = some d' → onlyTarget (BitVec.ofInt 16 c.reqAddr) d' s t :=
    fun t ht d' _ => onlyTarget_of_eq _ _ _ _ ht
  rcases writePhase_cases c s t h with ⟨d', e, hp, hd', hv, rfl⟩ | ⟨d', hp, hd', hv, rfl⟩ | ⟨d', hp, hd', rfl⟩ |
    ⟨f, hp, hf, hl, hb, rfl⟩ | ⟨f, hp, hf, hl, hb, rfl⟩ | ⟨f, hp, hf, rfl⟩ | ⟨f, hp, hf, hn, rfl⟩ |
    ⟨f, a, hp, hf, hn, rfl⟩ | ⟨d', f, hp, hd', hf, rfl⟩ <;> simp only [writePhaseInv, hp] at hI
  · exact ⟨.inr (.inr ⟨by simp, by simp [hop, hp, phaseLeadsTo]⟩), ⟨_, rfl, by simp [issuedFrames, Event.issuedFrame]⟩,
      fun h => h, by simp [hop], keep _ rfl⟩
  · rw [hd] at hd'; cases hd'
    refine ⟨.inr (.inl ⟨{ c with phase := .compose }, rfl, rfl, rfl, rfl, rfl, ?_, by simp [hop, hp, phaseLeadsTo], rfl⟩),
      ⟨[], by simp, by simp [issuedFrames]⟩, fun h => h, by simp [hop], keep _ rfl⟩
    simp only [Context.Inv, hop]
    exact ⟨hlen, haddr, d, hd, by simp only [writePhaseInv]; exact ⟨hI.1, hI.2, hv⟩⟩
  · rw [hd] at hd'; cases hd'
    refine ⟨.inr (.inl ⟨{ c with frame := some (compose opcWrite c.addr d), phase := .decide }, rfl, rfl, rfl, rfl, rfl, ?_,
      by simp [hop, hp, phaseLeadsTo], rfl⟩),
      ⟨[], by simp, by simp [issuedFrames]⟩, fun h => h, by simp [hop], keep _ rfl⟩
    simp only [Context.Inv, hop]
    refine ⟨hlen, haddr, d, hd, ?_⟩
    simp only [writePhaseInv, atChunk, hI.2.1, chunkAddr_zero]
    exact ⟨⟨haddr hI.2.1, by simp⟩, Nat.zero_le _, hI.2.2⟩
  · obtain ⟨⟨ha, hfr⟩, hk, hv⟩ := hI
    rw [hfr] at hf; cases hf
    simp only [length_compose, List.length_drop, transactionLimit, chunkPayloadLen] at hl
    have hnl := lt_fullChunks_iff d.length c.chunk
    have hK : c.chunk = fullChunks d.length := by omega
    refine ⟨.inr (.inl ⟨writeIssued c .xferFinal, rfl, rfl, rfl, rfl, rfl, ?_, by simp [hop, hp, phaseLeadsTo, writeIssued],
      rfl⟩), ⟨_, rfl, ?_⟩, fun h => h, by simp [hop], keep _ rfl⟩
    · simp only [Context.Inv, writeIssued, hop]
      refine ⟨hlen, fun h => by omega, d, hd, ?_⟩
      simp only [writePhaseInv, atChunk]
      exact ⟨by rw [hK], ⟨by rw [← hK]; exact ha, by rw [← hK]; exact hfr⟩, hv⟩
    · rw [issuedFrames_issue]
      intro f hf
      rw [List.mem_singleton] at hf; subst hf
      exact emittable_write _ _ _ (by simp only [List.length_drop, chunkPayloadLen]; omega)
  · obtain ⟨⟨ha, hfr⟩, hk, hv⟩ := hI
    rw [hfr] at hf; cases hf
    simp only [length_compose, List.length_drop, transactionLimit, chunkPayloadLen] at hl
    have hnl := lt_fullChunks_iff d.length c.chunk
    refine ⟨.inr (.inl ⟨writeIssued c .xferFull, rfl, rfl, rfl, rfl, rfl, ?_, by simp [hop, hp, phaseLeadsTo, writeIssued],
      rfl⟩), ⟨_, rfl, ?_⟩, fun h => h, by simp [hop], keep _ rfl⟩
    · simp only [Context.Inv, writeIssued, hop]
      refine ⟨hlen, fun h => by omega, d, hd, ?_⟩
      simp only [writePhaseInv, atChunk]
      exact ⟨c.chunk, rfl, ⟨ha, hfr⟩, by omega, hv⟩
    · rw [issuedFrames_issue]
      intro f hf
      rw [List.mem_singleton] at hf; subst hf
      rw [fullChunk_compose]
      exact emittable_write _ _ _ (by simp only [List.length_take, chunkPayloadLen]; omega)
  · obtain ⟨k, hc, ⟨ha, hfr⟩, hk, hv⟩ := hI
    rw [hfr] at hf; cases hf
    have hnl := (lt_fullChunks_iff d.length k).1 hk
    refine write_poll_move s c d _ _ k _ hop hd ha (by omega) (by simp) (by simp)
      (by simp [hp, phaseLeadsTo]) (by simp [hp, phaseLeadsTo]) fun _ u hu hcs => ⟨?_, rfl, [], by simp, rfl⟩
    refine .inr (.inl ⟨{ c with phase := .advance }, rfl, rfl, rfl, rfl, rfl, ?_, by simp [hop, hp, phaseLeadsTo], ?_⟩)
    · simp only [Context.Inv, hop]
      exact ⟨hlen, haddr, d, hd, by simp only [writePhaseInv, atChunk]; exact ⟨k, hc, ⟨ha, hfr⟩, hk, hv⟩⟩
    · simp [hcs]
  · exact ⟨.inr (.inr ⟨by simp, by simp [hop, hp, phaseLeadsTo]⟩), ⟨_, rfl, by simp [issuedFrames, Event.issuedFrame]⟩,
      fun h => h, by simp [hop], keep _ rfl⟩
  · obtain ⟨k, hc, ⟨ha, hfr⟩, hk, hv⟩ := hI
    rw [hfr] at hf; cases hf
    refine ⟨.inr (.inl ⟨{ c with addr := a, frame := some (compose opcWrite a (d.drop (4000 * (k + 1)))), phase := .decide },
      rfl, rfl, rfl, rfl, rfl, ?_, by simp [hop, hp, phaseLeadsTo], ?_⟩),
      ⟨[], by simp, by simp [issuedFrames]⟩, fun h => h, by simp [hop], keep _ rfl⟩
    · have hnext : a = chunkAddr (BitVec.ofInt addrWidth c.reqAddr) (k + 1) := by
        rw [← chunkAddr_succ, ← ha]
        by_cases hle : c.addr.toNat + 1000 ≤ 65535
        · rw [strideNext_below _ _ hle] at hn; exact (Option.some.inj hn).symm
        · cases hpol : s.params.addrOverflow with
          | fault => rw [hpol, strideNext_overflow _ (by omega)] at hn; cases hn
          | wrap => rw [hpol, strideNext_wrap] at hn; exact (Option.some.inj hn).symm
      simp only [Context.Inv, hop]
      refine ⟨hlen, fun h => by omega, d, hd, ?_⟩
      simp only [writePhaseInv, atChunk, hc]
      exact ⟨⟨hnext, trivial⟩, by omega, hv⟩
    · simp [Nat.mul_add]
  · obtain ⟨hc, ⟨ha, hfr⟩, hv⟩ := hI
    rw [hfr] at hf; cases hf
    have hnl := lt_fullChunks_iff d.length (fullChunks d.length)
    have hK : 4000 * fullChunks d.length ≤ d.length := by
      rcases Nat.eq_zero_or_pos (fullChunks d.length) with h0 | h0
      · omega
      · have := (lt_fullChunks_iff d.length (fullChunks d.length - 1)).1 (by omega); omega
    refine write_poll_move s c d _ _ (fullChunks d.length) _ hop hd ha hK (by simp) (by simp)
      (by simp [hp, phaseLeadsTo]) (by simp [hp, phaseLeadsTo]) fun _ u hu hcs => ⟨?_, rfl, _, rfl, rfl⟩
    exact .inr (.inr ⟨by simp [hcs], by simp [hop, hp, phaseLeadsTo]⟩)

/-- What one phase of a live context of either operation does. -/
theorem phaseStep_move (s t : State) (c : Context) (hI : c.Inv s.params) (h : phaseStep c.op c s = .next t) :
    PhaseMove s t c := by
  cases hop : c.op with
  | read => rw [hop] at h; exact readPhase_move s t c hop hI h
  | write => rw [hop] at h; exact writePhase_move s t c hop hI h

/-! ### The invariant over phases and runs -/

theorem map_put_ids (cs : List Context) (c' : Context) (id : Nat) (h : c'.id = id) :
   (cs.map fun d => if d.id = id then c' else d).map Context.id = cs.map Context.id := by
  rw [List.map_map]; refine List.map_congr_left fun e _ => ?_
  by_cases he : e.id = id <;> simp [he, h]

/-- One phase of a live context keeps the invariant. -/
theorem phaseStep_keeps (s t : State) (c : Context) (hI : s.Inv) (hc : c ∈ s.contexts) (h : phaseStep c.op c s = .next t) : t.Inv := by
  have hm := phaseStep_move s t c (hI.contexts c hc) h
  obtain ⟨h1, h2, h3, _⟩ := (phaseStep_frame _ _ _ _ h).surroundings
  have hb := hI.live (List.ne_nil_of_mem hc)
  have hctx : (t.contexts.map Context.id).Nodup ∧ t.contexts.length ≤ s.contexts.length ∧ ∀ e ∈ t.contexts, e.Inv s.params := by
    rcases hm.move with ⟨hm, _⟩ | ⟨c', hid, _, _, _, _, hcI, _, hm⟩ | ⟨hm, _⟩
    · rw [hm]; exact ⟨hI.ids, le_refl _, hI.contexts⟩
    · rw [hm, map_put_ids _ _ _ hid]
      refine ⟨hI.ids, by simp, fun e he => ?_⟩
      obtain ⟨e', he', rfl⟩ := List.mem_map.1 he
      split
      · exact hcI
      · exact hI.contexts _ he'
    · rw [hm]
      refine ⟨(List.Sublist.map _ List.filter_sublist).nodup hI.ids, List.length_filter_le _ _, fun e he => hI.contexts e (List.mem_filter.1 he).1⟩
  refine ⟨by rw [h1]; exact hI.params, by rw [h3, h2]; exact hI.cfg, fun _ => h2.trans hb, hctx.1, ?_, by rw [h1]; exact hctx.2.2, hm.chipWf hI.chip⟩
  intro m hm'; rw [h1] at hm'; exact hctx.2.1.trans (hI.room m hm')

/-- A run of one context's phases keeps the invariant and adds only legal frames to the bus traffic. -/
theorem runPhases_keeps (op : Op) (id n : Nat) (s t : State) (hI : s.Inv) (hop : ∀ c ∈ s.contexts, c.id = id → c.op = op) (h : runPhases (phaseStep op) id n s = .next t) :
    t.Inv ∧ (∀ c ∈ t.contexts, c.id = id → c.op = op) ∧ ((∀ f ∈ issuedFrames s.history, emittable s.params f) → ∀ f ∈ issuedFrames t.history, emittable t.params f) := by
  have := runPhases_induction _ id (fun u => u.Inv ∧ (∀ c ∈ u.contexts, c.id = id → c.op = op) ∧ u.params = s.params ∧ ((∀ f ∈ issuedFrames s.history, emittable s.params f) → ∀ f ∈ issuedFrames u.history, emittable u.params f)) ?_ n s t ⟨hI, hop, rfl, fun h => h⟩ h
  · exact ⟨this.1, this.2.1, this.2.2.2⟩
  · rintro c u v ⟨huI, huo, hup, hue⟩ hc hid _ hv
    have hco := huo c hc hid
    subst hco
    have hvI := phaseStep_keeps u v c huI hc hv
    have hm := phaseStep_move u v c (huI.contexts c hc) hv
    have hp := (phaseStep_frame _ _ _ _ hv).surroundings.1
    refine ⟨hvI, ?_, hp.trans hup, ?_⟩
    · intro e he hei
      rcases hm.move with ⟨hm, _⟩ | ⟨c', hid', ho', _, _, _, hcI, _, hm⟩ | ⟨hm, _⟩
      · rw [hm] at he; exact huo e he hei
      · rw [hm] at he
        obtain ⟨e', he', rfl⟩ := List.mem_map.1 he
        split at hei <;> split <;> simp_all
      · rw [hm] at he; exact huo e (List.mem_filter.1 he).1 hei
    · intro h0 f hf
      obtain ⟨es, he, hes⟩ := hm.issues
      rw [he, issuedFrames_append, List.mem_append] at hf
      rw [hp]
      rcases hf with hf | hf
      · exact hue h0 f hf
      · exact hes f hf

theorem newContext_inv (p : Params) (id : Nat) (i : Instr) : (newContext id i).Inv p := by
  cases i <;> simp [newContext, Context.Inv, readPhaseInv, writePhaseInv]

/-- Accepting a command keeps the invariant (R21, R60). -/
theorem addContext_inv (s : State) (i : Instr) (hI : s.Inv) (ht : s.takesCommands) : (s.addContext (newContext s.newId i)).Inv := by
  refine ⟨hI.params, hI.cfg, fun _ => ht.1, ?_, ?_, ?_, hI.chip⟩
  · simp only [State.addContext_contexts, List.map_append, List.map_cons, List.map_nil, newContext_id]
    rw [List.nodup_append]
    refine ⟨hI.ids, by simp, ?_⟩
    rintro a ha b hb
    obtain ⟨c, hc, rfl⟩ := List.mem_map.1 ha
    simp at hb; subst hb
    exact s.newId_free c hc
  · intro m hm
    have := ht.2
    simp at hm
    simp [State.hasRoom, hm] at this
    simp; omega
  · intro c hc
    simp at hc
    rcases hc with hc | rfl
    · exact hI.contexts c hc
    · exact newContext_inv _ _ _

theorem addContext_op (s : State) (i : Instr) : ∀ c ∈ (s.addContext (newContext s.newId i)).contexts, c.id = s.newId → c.op = Instr.opOf i := by
  intro c hc hid
  simp at hc
  rcases hc with hc | rfl
  · exact absurd hid (s.newId_free c hc)
  · exact newContext_op _ _

/-- An edit of the fields the invariant does not see. -/
theorem State.Inv_congr (s t : State) (hI : s.Inv) (h1 : t.params = s.params) (h2 : t.bus = s.bus) (h3 : t.cfg = s.cfg) (h4 : t.contexts = s.contexts) (h5 : t.chip = s.chip) : t.Inv := by
  refine ⟨?_, ?_, ?_, ?_, ?_, ?_, ?_⟩
  · rw [h1]; exact hI.params
  · rw [h2, h3]; exact hI.cfg
  · rw [h2, h4]; exact hI.live
  · rw [h4]; exact hI.ids
  · rw [h1, h4]; exact hI.room
  · rw [h1, h4]; exact hI.contexts
  · rw [h5]; exact hI.chip

theorem ids_nodup_eq (cs : List Context) (h : (cs.map Context.id).Nodup) (c d : Context) (hc : c ∈ cs) (hd : d ∈ cs) (he : d.id = c.id) : d = c :=
  List.inj_on_of_nodup_map h hd hc he

/-- With BUS OPEN a phase of a context that fits the invariant has a next state. -/
theorem phaseStep_total (s : State) (c : Context) (hb : s.bus = .opened) (hI : c.Inv s.params) : ∃ t, phaseStep c.op c s = .next t := by
  have hiss : ∀ c w p, ∃ t, s.issueTransfer c w p = .next t := by intro c w p; exact ⟨_, by rw [State.issueTransfer, hb]⟩
  unfold Context.Inv at hI
  cases hop : c.op with
  | read =>
    simp only [hop] at hI
    obtain ⟨_, _, n, hn, hI⟩ := hI
    simp only [phaseStep, readPhase]
    cases hp : c.phase <;> simp only [readPhaseInv, hp] at hI
    · exact ⟨_, by rw [readCheck, withLen_some c n _ hn]⟩
    · simp only [readCompose, withLen_some c n _ hn]
      split
      · exact ⟨_, rfl⟩
      · exact hiss _ _ _
    · exact ⟨_, by rw [readTransfer, withFrame_some c _ _ hI.1]⟩
  | write =>
    simp only [hop] at hI
    obtain ⟨_, _, d, hd, hI⟩ := hI
    simp only [phaseStep, writePhase]
    cases hp : c.phase <;> simp only [writePhaseInv, hp] at hI
    · exact ⟨_, by rw [writeCheck, withData_some c d _ hd]⟩
    · exact ⟨_, by rw [writeCompose, withData_some c d _ hd]⟩
    · simp only [writeDecide, withFrame_some c _ _ hI.1.2]
      split <;> exact hiss _ _ _
    · obtain ⟨k, _, hk, _⟩ := hI
      exact ⟨_, by rw [writeFull, withFrame_some c _ _ hk.2]⟩
    · obtain ⟨k, _, hk, _⟩ := hI
      exact ⟨_, by rw [writeAdvance, withFrame_some c _ _ hk.2]⟩
    · exact ⟨_, by rw [writeFinal, withData_some c d _ hd, withFrame_some c _ _ hI.2.1.2]⟩

/-- So has a run of phases. -/
theorem runPhases_total (op : Op) (id n : Nat) : ∀ s : State, s.Inv → (∀ c ∈ s.contexts, c.id = id → c.op = op) →
    ∃ t, runPhases (phaseStep op) id n s = .next t := by
  induction n with
  | zero => intro s _ _; exact ⟨s, rfl⟩
  | succ n ih =>
    intro s hI hop
    rw [runPhases]
    split
    · exact ⟨_, rfl⟩
    · next c hc =>
      obtain ⟨hid, hmem⟩ := findContext_id s id c hc
      have hco := hop c hmem hid
      obtain ⟨t, ht⟩ := phaseStep_total s c (hI.live (List.ne_nil_of_mem hmem)) (hI.contexts c hmem)
      rw [hco] at ht
      rw [ht]
      have := runPhases_keeps op id 1 s t hI hop (by rw [runPhases, hc]; simp only [ht]; rfl)
      exact ih t this.1 this.2.1

/-! ### Where a context stands after an update -/

/-- With distinct IDs, a live context is found under its ID. -/
theorem State.findContext_mem (s : State) (c : Context) (h : (s.contexts.map Context.id).Nodup) (hc : c ∈ s.contexts) :
    s.findContext c.id = some c := by
  rw [State.findContext]
  cases hf : s.contexts.find? (fun d => d.id == c.id) with
  | none => rw [List.find?_eq_none] at hf; have := hf c hc; simp at this
  | some d => rw [ids_nodup_eq s.contexts h c d hc (List.mem_of_find?_eq_some hf) (by simpa using List.find?_some hf)]

/-- A context that has delivered its result is retired (R24). -/
theorem State.phaseOf_finish (s : State) (c : Context) (r : Result) : (s.finish c r).phaseOf c.id = .done := by
  have : (s.finish c r).findContext c.id = none := by
    rw [State.findContext, List.find?_eq_none]
    intro d hd
    simp at hd
    simpa using hd.2
  rw [State.phaseOf, this]

/-- A live context that is rewritten stands where the rewritten one does. -/
theorem State.phaseOf_put (s : State) (c d : Context) (hd : d.id = c.id) (hf : ∃ e, s.findContext c.id = some e) :
    (s.putContext d).phaseOf c.id = d.phase := by
  obtain ⟨e, he⟩ := hf
  have : (s.putContext d).findContext c.id = some d := by
    rw [State.findContext] at he ⊢
    rw [State.putContext_contexts, List.find?_map]
    have : ((fun e : Context => e.id == c.id) ∘ fun e => if e.id = d.id then d else e) = fun e => e.id == c.id := by
      funext e; by_cases h : e.id = c.id <;> simp [h, hd]
    rw [this, he]
    have := List.find?_some he
    simp at this
    simp [this, hd]
  rw [State.phaseOf, this]

end Sys2Proof.Machine
end

