-- ==== Sys2Proof/Laws/Muted.lean ====
section
/-! SUPPORT. Every operation of a run of phases and of a command, on a state and on the same state with every trace of DEBUG
removed, answers the same but for those traces. -/

namespace Sys2Proof.Machine

/-- A context with its DEBUG bit cleared. -/
def mute (c : Context) : Context := { c with dbg := false }

theorem muted_contexts (s : State) : s.muted.contexts = s.contexts.map mute := rfl

theorem withoutDiags_append (g h) : withoutDiags (g ++ h) = withoutDiags g ++ withoutDiags h := by simp [withoutDiags]

theorem withoutDiags_idem (g) : withoutDiags (withoutDiags g) = withoutDiags g := by simp [withoutDiags]

theorem mute_mute (c) : mute (mute c) = mute c := rfl

theorem map_mute_put (cs : List Context) (c : Context) : (cs.map fun d => if d.id = c.id then c else d).map mute = (cs.map mute).map fun d => if d.id = (mute c).id then mute c else d := by
  rw [List.map_map, List.map_map]; refine List.map_congr_left fun e _ => ?_
  simp only [Function.comp]; by_cases h : e.id = c.id <;> simp [h, mute]

theorem map_mute_mute (cs : List Context) : (cs.map mute).map mute = cs.map mute := by
  rw [List.map_map]; rfl

theorem map_mute_filter (cs : List Context) (id) : (cs.filter fun d => d.id != id).map mute = (cs.map mute).filter fun d => d.id != id := by
  rw [List.filter_map]; rfl

theorem quiet_quiet (i : Instr) : i.quiet.quiet = i.quiet := by cases i <;> rfl

theorem muted_muted (s : State) : s.muted.muted = s.muted := by
  simp only [State.muted, withoutDiags_idem, List.map_map]
  congr 1
  apply List.map_congr_left; intro i _; exact quiet_quiet i

theorem muted_put (s : State) (c) : (s.putContext c).muted = (s.muted.putContext (mute c)) := by
  simp only [State.muted, State.putContext]
  congr 1
  exact map_mute_put s.contexts c

theorem muted_record (s : State) (es) : (s.record es).muted = s.muted.record (withoutDiags es) := by
  simp only [State.muted, State.record, withoutDiags_append]

theorem muted_finish (s : State) (c r) : (s.finish c r).muted = s.muted.finish (mute c) r := by
  simp only [State.finish, State.muted, State.record, State.retire, withoutDiags_append]
  congr 1
  exact map_mute_filter s.contexts c.id

theorem muted_raise (s : State) (c e) : (s.raiseError c e).muted = s.muted.raiseError (mute c) e := muted_finish _ _ _

theorem muted_landed (s : State) (c f) : (s.transferLanded c f).muted = s.muted.transferLanded (mute c) f := by
  unfold State.transferLanded; rw [show (mute c).op = c.op from rfl]; cases c.op <;> rfl

theorem muted_lost (s : State) (c f) : (s.transferLost c f).muted = s.muted.transferLost (mute c) f := by
  unfold State.transferLost; rw [show (mute c).op = c.op from rfl]; cases c.op <;> rfl

theorem muted_after (s : State) : s.afterOutcome.muted = s.muted.afterOutcome := by
  unfold State.afterOutcome; rw [show s.muted.answers = s.answers from rfl]; cases s.answers <;> rfl

theorem muted_poll (s : State) (c cur w) (k k' : Bytes → State → State) (hk : ∀ r u, (k r u).muted = (k' r u.muted).muted) :
    (s.pollTransfer c cur w k).muted = (s.muted.pollTransfer (mute c) cur w k').muted := by
  have ho : s.muted.nextOutcome = s.nextOutcome := rfl
  unfold State.pollTransfer
  rw [ho]
  cases s.nextOutcome with
  | none => show s.afterOutcome.muted = s.muted.afterOutcome.muted; rw [← muted_after, muted_muted]
  | some o =>
    show (s.afterOutcome.answerTransfer c cur w o k).muted = (s.muted.afterOutcome.answerTransfer (mute c) cur w o k').muted
    unfold State.answerTransfer
    cases o with
    | fail =>
      simp only [muted_raise, muted_lost, muted_record, muted_after, muted_muted, mute_mute]
      rfl
    | response r =>
      simp only
      split
      · rw [hk, muted_landed, muted_record, muted_after]; rfl
      · simp only [muted_raise, muted_lost, muted_record, muted_after, muted_muted, mute_mute]; rfl

theorem withoutDiags_issue (c : Context) (w : Bytes) :
    withoutDiags (.issue c.id c.chunk w :: diagEvents c w) = [.issue c.id c.chunk w] := by
  unfold diagEvents; split <;> rfl

theorem muted_issue (s : State) (c w p) : mutedAnswer (s.issueTransfer c w p) = mutedAnswer (s.muted.issueTransfer (mute c) w p) := by
  unfold State.issueTransfer
  rw [show s.muted.bus = s.bus from rfl]
  cases s.bus <;> try rfl
  simp only [mutedAnswer, muted_put, muted_record, muted_muted, withoutDiags_issue]
  rfl

theorem muted_withLen (c : Context) (k k' : Int → Answer) (h : ∀ n, mutedAnswer (k n) = mutedAnswer (k' n)) :
    mutedAnswer (withLen c k) = mutedAnswer (withLen (mute c) k') := by
  unfold withLen; rw [show (mute c).len = c.len from rfl]; split
  · exact h _
  · rfl

theorem muted_withData (c : Context) (k k' : Bytes → Answer) (h : ∀ n, mutedAnswer (k n) = mutedAnswer (k' n)) :
    mutedAnswer (withData c k) = mutedAnswer (withData (mute c) k') := by
  unfold withData; rw [show (mute c).data = c.data from rfl]; split
  · exact h _
  · rfl

theorem muted_withFrame (c : Context) (k k' : Bytes → Answer) (h : ∀ n, mutedAnswer (k n) = mutedAnswer (k' n)) :
    mutedAnswer (withFrame c k) = mutedAnswer (withFrame (mute c) k') := by
  unfold withFrame; rw [show (mute c).frame = c.frame from rfl]; split
  · exact h _
  · rfl

theorem muted_phase (op : Op) (c : Context) (s : State) : mutedAnswer (phaseStep op c s) = mutedAnswer (phaseStep op (mute c) s.muted) := by
  have hp : ∀ c d : Context, d = mute c → (s.putContext c).muted = (s.muted.putContext d).muted := by
    rintro c _ rfl; rw [muted_put, muted_put, muted_muted, mute_mute]
  have hr : ∀ e, (s.raiseError c e).muted = (s.muted.raiseError (mute c) e).muted := by
    intro e; rw [muted_raise, muted_raise, muted_muted, mute_mute]
  have hn : ∀ u v : State, u.muted = v.muted → mutedAnswer (.next u) = mutedAnswer (.next v) := fun u v h => by
    rw [mutedAnswer, mutedAnswer, h]
  cases op with
  | read =>
    simp only [phaseStep, readPhase]
    rw [show (mute c).phase = c.phase from rfl]
    cases c.phase <;> try rfl
    · refine muted_withLen c _ _ fun n => hn _ _ ?_
      rw [show readInputError (mute c).id (mute c).reqAddr n = readInputError c.id c.reqAddr n from rfl]
      cases readInputError c.id c.reqAddr n with
      | none => exact hp _ _ rfl
      | some e => exact hr e
    · refine muted_withLen c _ _ fun n => ?_
      rw [show s.muted.params = s.params from rfl]
      split
      · exact hn _ _ (hr _)
      · exact muted_issue _ _ _ _
    · exact muted_withFrame c _ _ fun f => hn _ _ (muted_poll s c f f _ _ fun r u => by
        rw [muted_finish, muted_finish, muted_muted]; rfl)
  | write =>
    simp only [phaseStep, writePhase]
    rw [show (mute c).phase = c.phase from rfl]
    cases c.phase
    case xferRead => rfl
    case done => rfl
    · refine muted_withData c _ _ fun d => hn _ _ ?_
      rw [show writeInputError s.muted.params (mute c).id (mute c).reqAddr d = writeInputError s.params c.id c.reqAddr d from rfl]
      cases writeInputError s.params c.id c.reqAddr d with
      | none => exact hp _ _ rfl
      | some e => exact hr e
    · exact muted_withData c _ _ fun d => hn _ _ (hp _ (mute { c with frame := some (compose opcWrite c.addr d), phase := .decide }) rfl)
    · refine muted_withFrame c _ _ fun f => ?_
      split
      · exact muted_issue _ _ _ _
      · exact muted_issue _ _ _ _
    · exact muted_withFrame c _ _ fun f => hn _ _ (muted_poll s c f _ _ _ fun r u => by
        rw [muted_put, muted_put, muted_muted]; rfl)
    · refine muted_withFrame c _ _ fun f => hn _ _ ?_
      rw [show strideNext s.muted.params.addrOverflow (mute c).addr = strideNext s.params.addrOverflow c.addr from rfl]
      cases strideNext s.params.addrOverflow c.addr with
      | none => exact hr _
      | some a => exact hp _ _ rfl
    · exact muted_withData c _ _ fun d => muted_withFrame c _ _ fun f => hn _ _ (muted_poll s c f f _ _ fun r u => by
        rw [muted_finish, muted_finish, muted_muted]; rfl)

theorem muted_run (op : Op) (id n : Nat) : ∀ (s t : State), s.muted = t.muted → mutedAnswer (runPhases (phaseStep op) id n s) = mutedAnswer (runPhases (phaseStep op) id n t) := by
  induction n with
  | zero => intro s t h; simp [runPhases, mutedAnswer, h]
  | succ n ih =>
    intro s t h
    have hf : ∀ s : State, (s.findContext id).map mute = s.muted.findContext id := by
      intro s; simp only [State.findContext, muted_contexts, List.find?_map]; rfl
    have hff : (s.findContext id).map mute = (t.findContext id).map mute := by rw [hf, hf, h]
    rw [runPhases, runPhases]
    cases hs : s.findContext id with
    | none =>
      cases ht : t.findContext id with
      | none => simp [mutedAnswer, h]
      | some d => rw [hs, ht] at hff; cases hff
    | some c =>
      cases ht : t.findContext id with
      | none => rw [hs, ht] at hff; cases hff
      | some d =>
        rw [hs, ht] at hff
        have hcd : mute c = mute d := by simpa using hff
        have hph : mutedAnswer (phaseStep op c s) = mutedAnswer (phaseStep op d t) := by
          rw [muted_phase op c s, muted_phase op d t, h, hcd]
        simp only
        cases h1 : phaseStep op c s <;> cases h2 : phaseStep op d t <;> rw [h1, h2] at hph <;> simp only [mutedAnswer] at hph <;> try cases hph
        · simp only; exact ih _ _ (by simpa using hph)
        · rfl
        · rfl

theorem muted_exec (i j : Instr) (s t : State) (hij : i.quiet = j.quiet) (h : s.muted = t.muted) : mutedAnswer (exec i s) = mutedAnswer (exec j t) := by
  rw [exec_command, exec_command]
  have hop : Instr.opOf i = Instr.opOf j := by cases i <;> cases j <;> simp_all [Instr.quiet, Instr.opOf]
  rw [← hop]
  have hb : s.bus = t.bus := by have : s.muted.bus = t.muted.bus := by rw [h]
                                exact this
  have hr : s.hasRoom = t.hasRoom := by
    have h1 : s.muted.hasRoom = s.hasRoom := by simp [State.hasRoom, State.muted]
    have h2 : t.muted.hasRoom = t.hasRoom := by simp [State.hasRoom, State.muted]
    rw [← h1, ← h2, h]
  have hg : s.grant = t.grant := by have : s.muted.grant = t.muted.grant := by rw [h]
                                    exact this
  have hid : ∀ tag, s.freshId tag = t.freshId tag := by
    intro tag
    have h1 : ∀ s : State, s.muted.freshId tag = s.freshId tag := by
      intro s
      simp only [State.freshId, muted_contexts, List.any_map, List.foldr_map]; rfl
    rw [← h1 s, ← h1 t, h]
  have hw : (s.waitAtPort i).muted = (t.waitAtPort j).muted := by
    have : ∀ (s : State) i, (s.waitAtPort i).muted = s.muted.waitAtPort i.quiet := by
      intro s i; simp [State.waitAtPort, State.muted]
    rw [this, this, h, hij]
  unfold State.command
  rw [← hb, ← hr, ← hg, hid]
  cases s.bus
  · simp [mutedAnswer, hw]
  · simp only
    split
    · refine muted_run _ _ _ _ _ ?_
      have : ∀ (s : State) id i, (s.addContext (newContext id i)).muted = s.muted.addContext (newContext id i.quiet) := by
        intro s id i; cases i <;> simp [State.addContext, State.muted, newContext, Instr.quiet]
      rw [this, this, h, hij]
    · simp [mutedAnswer, hw]
  · simp [mutedAnswer, hw]

end Sys2Proof.Machine
end

