-- ==== Sys2Proof/Laws/PerInstr.lean ====
section
/-! SUPPORT. What the request frame of an instruction looks like, one lemma per constructor: the family EncodeShape. -/

namespace Sys2Proof

open Sys2Proof.Machine

/-- The opcode byte of an instruction's row in spec/opcode_table.json (R64). -/
def Instr.opcode : Instr → Byte
  | .write _ _ _ => 0x00#8
  | .read _ _ _ => 0x01#8

/-- The address operand of an instruction. -/
def Instr.address : Instr → Int
  | .write a _ _ => a
  | .read a _ _ => a

/-- How many payload bytes an instruction's request frame carries (R65, R102). -/
def Instr.payloadLen : Instr → Nat
  | .write _ d _ => d.length
  | .read _ n _ => n.toNat

/-- The frame of a well-formed instruction is its header and its payload: opcode byte, address, length (R62). -/
def Laws.EncodeShape.Statement (i : Instr) : Prop :=
  i.wf = true →
    (encode i).length = 3 + i.payloadLen ∧ frameOpcode (encode i) = i.opcode ∧
      (frameAddr (encode i) : Int) = i.address

theorem ofInt_toNat_of_inRange (a : Int) (h : addressInRange a = true) : ((BitVec.ofInt 16 a).toNat : Int) = a := by
  simp [addressInRange] at h
  simp [BitVec.toNat_ofInt]
  omega

theorem Laws.EncodeShape.write (addr : Int) (data : Bytes) (dbg : Bool) :
    Laws.EncodeShape.Statement (.write addr data dbg) := by
  intro h
  refine ⟨by simp [encode, Instr.payloadLen]; omega, rfl, ?_⟩
  rw [encode, frameAddr_compose]
  exact ofInt_toNat_of_inRange addr h

theorem Laws.EncodeShape.read (addr len : Int) (dbg : Bool) :
    Laws.EncodeShape.Statement (.read addr len dbg) := by
  intro h
  refine ⟨by simp [encode, Instr.payloadLen, zeros]; omega, rfl, ?_⟩
  rw [encode, frameAddr_compose]
  exact ofInt_toNat_of_inRange addr (by simp [Instr.wf] at h; exact h.1)

end Sys2Proof
end

