-- ==== Sys2Proof/Tests/Slice0.lean ====
section
/-! SUPPORT. Tests, each expected value taken from the vector of spec/95_test_vectors.md its name cites (or written out from
the rule cited), and one witness for the hypotheses of every statement that has some. -/

namespace Sys2Proof.Tests

open Sys2Proof Sys2Proof.Machine

/-! ### Helpers -/

/-- The parameters at the defaults of R7, with concrete bus numbers. -/
def params : Params :=
  { busId := 0, deviceId := 0, addrOverflow := .fault, readOversize := .fault, maxContexts := none, maxWriteLen := none }

/-- The block initialised, with the bus answers listed and a grant of 40 phases under the tag 7. -/
def ready (answers : List (Option BusOutcome)) : State :=
  { params := params, bus := .opened, cfg := some busSettings, init := .setMode, contexts := [], history := [],
    calls := [], port := [], chip := [], agenda := [], answers := answers, setterAnswers := [], grant := ⟨7, 40⟩, draws := 0 }

/-- The block uninitialised, with the turns and setter answers listed. -/
def closed (turns : List Turn) (oks : List Bool) : State :=
  { ready [] with bus := .closed, cfg := none, init := .openHandle, agenda := turns, setterAnswers := oks }

/-- The history an answer leaves. -/
def historyOf : Answer → List Event
  | .next s => s.history
  | .fault _ => []
  | .refused _ => []

/-- The bus state and the calls an answer leaves. -/
def busOf : Answer → Option (Bus × Option BusConfig × List HandleCall)
  | .next s => some (s.bus, s.cfg, s.calls)
  | .fault _ => none
  | .refused _ => none

/-! ### Well-formedness: an ill-formed term for each check -/

theorem test_wf_negative_address : (Instr.write (-1) [] false).wf = false := by decide
theorem test_wf_write_address_65536 : (Instr.write 65536 [] false).wf = false := by decide
theorem test_wf_read_address_65536 : (Instr.read 65536 0 false).wf = false := by decide
theorem test_wf_negative_length : (Instr.read 0 (-1) false).wf = false := by decide
theorem test_wf_top : (Instr.read 65535 0 true).wf = true ∧ (Instr.write 65535 [] true).wf = true := by decide

/-! ### Encodings: words written out from R62 and the vectors F1 to F6 -/

theorem test_decode_F1 : decode [0x00#8, 0x00#8, 0x00#8] = .ok (.write 0 [] false) := by decide
theorem test_decode_F2 : decode [0x01#8, 0xFF#8, 0xFF#8] = .ok (.read 0xFFFF 0 false) := by decide
theorem test_decode_F3 :
    decode [0x00#8, 0x12#8, 0x34#8, 0xAA#8, 0xBB#8] = .ok (.write 0x1234 [0xAA#8, 0xBB#8] false) := by decide
theorem test_decode_F4 : decode [0x01#8, 0x00#8, 0xFF#8, 0x00#8] = .ok (.read 0x00FF 1 false) := by decide
theorem test_encode_F5 : encode (.write 0xFF00 [0x01#8] false) = [0x00#8, 0xFF#8, 0x00#8, 0x01#8] := by decide
theorem test_encode_F6 : encode (.read 0x1234 2 false) = [0x01#8, 0x12#8, 0x34#8, 0x00#8, 0x00#8] := by decide
theorem test_decode_short_frame : decode [0x01#8, 0xFF#8] = .error .notAFrame := by decide
theorem test_decode_reserved_opcode : decode [0xFF#8, 0x00#8, 0x00#8] = .error (.reservedOpcode 0xFF#8) := by decide
theorem test_decode_filler : decode [0x01#8, 0x00#8, 0x00#8, 0x01#8] = .error .fillerNotZero := by decide

/-- R63: header bits 23..16 are frame byte 0, bits 15..0 the address; then the payload bytes. -/
theorem test_table_words :
    decodeTableWord 24 0x01FFFF = some (.read 0xFFFF 0 false) ∧
    decodeTableWord 24 0x001234 = some (.write 0x1234 [] false) ∧
    decodeTableWord 40 0xBBAA001234 = some (.write 0x1234 [0xAA#8, 0xBB#8] false) ∧
    decodeTableWord 24 0x020000 = none := by decide

/-! ### One command each -/

/-- RV2. -/
theorem test_read_RV2 :
    historyOf (exec (.read 0x1234 4 false)
      (ready [some (.response [0xA0#8, 0xA1#8, 0xA2#8, 0xDE#8, 0xAD#8, 0xBE#8, 0xEF#8])])) =
    [.issue 7 0 [0x01#8, 0x12#8, 0x34#8, 0x00#8, 0x00#8, 0x00#8, 0x00#8],
     .outcome 7 (.response [0xA0#8, 0xA1#8, 0xA2#8, 0xDE#8, 0xAD#8, 0xBE#8, 0xEF#8]),
     .result (some 7) (.okRead [0xDE#8, 0xAD#8, 0xBE#8, 0xEF#8])] := by decide

/-- RV9: the one diagnostic event, at the issue. -/
theorem test_read_RV9 :
    (historyOf (exec (.read 0x0020 8 true) (ready [some (.response (List.replicate 11 0x00#8))])))[1]? = some (.diag 7 .read 0 0x0020 11 8) := by decide

/-- W3. -/
theorem test_write_W3 :
    historyOf (exec (.write 0x0010 [0x01#8, 0x02#8, 0x03#8, 0x04#8, 0x05#8, 0x06#8, 0x07#8, 0x08#8] false)
      (ready [some (.response (List.replicate 11 0x00#8))])) =
    [.issue 7 0 [0x00#8, 0x00#8, 0x10#8, 0x01#8, 0x02#8, 0x03#8, 0x04#8, 0x05#8, 0x06#8, 0x07#8, 0x08#8],
     .outcome 7 (.response (List.replicate 11 0x00#8)),
     .result (some 7) (.okWrite [0x01#8, 0x02#8, 0x03#8, 0x04#8, 0x05#8, 0x06#8, 0x07#8, 0x08#8])] := by decide

/-- W16. -/
theorem test_write_W16 :
    historyOf (exec (.write 0x0040 [0x01#8, 0x02#8] false) (ready [some .fail])) =
    [.issue 7 0 [0x00#8, 0x00#8, 0x40#8, 0x01#8, 0x02#8], .outcome 7 .fail,
     .result (some 7) (.err (.busTransfer 7 0 none))] := by decide

/-- RV12: the address is checked before the length (R138). -/
theorem test_check_RV12 : readInputError 7 70000 (-1) = some (.invalidAddress 7 70000) := by decide

/-- R130. -/
theorem test_error_codes :
    [.busInit, .busTransfer 0 0 none, .invalidAddress 0 0, .invalidLength 0 0, .oversizeRead 0 0,
      .addressOverflow 0 0 0#16].map errorCode = [1, 2, 3, 4, 5, 6] ∧ opBit .write = 0#1 ∧ opBit .read = 1#1 := by decide

/-! ### The splitter and the multiplexer -/

/-- W4, W5, W7, W8, W10, W11, W12: K on both sides of each boundary. -/
theorem test_full_chunks :
    [4092, 4093, 8092, 8093, 12000, 12092, 12093].map fullChunks = [0, 1, 1, 2, 2, 2, 3] := by decide

/-- A1, A2, A3, A5. -/
theorem test_stride :
    strideNext .fault 0xFC17#16 = some 0xFFFF#16 ∧ strideNext .fault 0xFC18#16 = none ∧
    strideNext .wrap 0xFC18#16 = some 0x0000#16 ∧ strideNext .wrap 0xFDE8#16 = some 0x01D0#16 := by decide

/-- P1: after C0, cells 0x0040 and 0x0041. -/
theorem test_mem_write_P1 :
    cellByte (memWrite [] 0x0040#16 [0x00#8, 0x00#8, 0x00#8, 0x01#8, 0x00#8, 0x00#8, 0x00#8, 0x02#8]) 0x0041 3 =
      some 0x02#8 := by decide

/-- N8: a payload that runs past cell 0xFFFF keeps what fits; R167: a failed write forgets whole cells. -/
theorem test_mem_edges :
    memWrite [] 0xFFFF#16 [0x01#8, 0x02#8, 0x03#8, 0x04#8, 0x05#8] =
      [(262140, 0x01#8), (262141, 0x02#8), (262142, 0x03#8), (262143, 0x04#8)] ∧
    memLose [(3, 0x01#8), (4, 0x02#8), (7, 0x03#8), (8, 0x04#8)] 0x0001#16 1 = [(3, 0x01#8), (8, 0x04#8)] := by decide

/-- R171's figures for a full chunk and the longest frame. -/
theorem test_least_transfer_time : leastTransferMicros 4003 = 32024 ∧ leastTransferMicros 4095 = 32760 := by decide

/-! ### Initialisation and steps -/

/-- I2, I3: the sequence stops at the failing call. -/
theorem test_init_I2 :
    busOf (step (closed [.run 0 0] [false])) = some (.initFailed, none, [.openHandle 0 0]) := by decide
theorem test_init_I3 :
    busOf (step { closed [.run 0 0] [false] with init := .setSpeed, calls := [.openHandle 0 0, .set .bitsPerWord 8] }) =
      some (.initFailed, none, [.openHandle 0 0, .set .bitsPerWord 8, .set .maxSpeedHz 1000000]) := by decide

/-- RV1 as the first command after reset. -/
theorem test_first_step :
    historyOf (step (({ State.reset with answers := [some (.response [0x5A#8, 0x5A#8, 0x5A#8])] } : State).withFetchWord
      24 0x010000)) =
    [.issue 0 0 [0x01#8, 0x00#8, 0x00#8], .outcome 0 (.response [0x5A#8, 0x5A#8, 0x5A#8]),
     .result (some 0) (.okRead [])] := by decide

/-! ### The textual form (R72) -/

theorem test_parse_read : parseLine "READ.D 0x0020, 8 ; RV9".toList = some (some (.read 0x20 8 true)) := by decide
theorem test_parse_write :
    parseLine "WRITE 0x1234, fill(2, 0xAA)".toList = some (some (.write 0x1234 [0xAA#8, 0xAA#8] false)) := by decide

/-! ### Witnesses: for each statement with hypotheses, values that meet all of them, at the ends of the ranges -/

/-- A payload of one full chunk and 93 bytes. -/
def long : Bytes := List.replicate 4093 0x00#8

/-- A response of a full chunk's length. -/
def ack : Bytes := List.replicate 4003 0x00#8

theorem long_length : long.length = 4093 := List.length_replicate

theorem ack_length : ack.length = 4003 := List.length_replicate

theorem long_chunks : fullChunks long.length = 1 := by rw [long_length]; decide

theorem long_schedule (a : Addr) : writeSchedule a long = [chunkFrame a long 0, chunkFrame a long 1] := by
  rw [writeSchedule, long_chunks]; rfl

theorem long_first (a : Addr) : (chunkFrame a long 0).length = 4003 := by
  rw [chunkFrame, length_compose, chunkPayload_full _ _ (by rw [long_chunks]; decide), List.length_take,
    List.length_drop, long_length]
  decide

theorem long_second (a : Addr) : (chunkFrame a long 1).length = 96 := by
  rw [chunkFrame, length_compose, chunkPayload_final _ _ (by rw [long_chunks]; decide), List.length_drop, long_length]

theorem ready_takes (answers : List (Option BusOutcome)) : (ready answers).takesCommands := ⟨rfl, rfl⟩

theorem ready_unbounded (answers : List (Option BusOutcome)) (n : Nat) :
    ∀ m, (ready answers).params.maxWriteLen = some m → n ≤ m := by intro m h; cases h

theorem witness_ComposerLaws : compose 0x01#8 0xFFFF#16 [] = compose 0x01#8 0xFFFF#16 [] := rfl

theorem witness_FrameObservation :
    ([0x00#8, 0x00#8] : Bytes).length < 3 ∧ (0x02#8 ≠ 0x00#8 ∧ 0x02#8 ≠ 0x01#8) ∧ (0xFF#8 ≠ 0x00#8 ∧ 0xFF#8 ≠ 0x01#8) := by
  decide

theorem witness_DecodeOfEncodeIsTheCommand :
    (Instr.write 0 [0xFF#8] true).wf = true ∧ (Instr.read 65535 0 true).wf = true := by decide

theorem witness_EncodeOfDecodeIsTheFrame :
    decode [0x01#8, 0xFF#8, 0xFF#8, 0x00#8] = .ok (.read 0xFFFF 1 false) ∧ (Instr.read 0xFFFF 1 false).wf = true ∧
    (Instr.read 0xFFFF 1 false).dbg = false ∧ encode (.read 0xFFFF 1 false) = [0x01#8, 0xFF#8, 0xFF#8, 0x00#8] := by decide

/-- LEN 0 at address 0, LEN 4092 at address 65535, and LEN 4093 under the policy `pass`. -/
theorem witness_ReadCompletes :
    ((ready []).takesCommands ∧ 3 ≤ (ready []).grant.burst) ∧
    (([0x5A#8, 0x5A#8, 0x5A#8] : Bytes).length : Int) = 3 + 0 ∧ ((List.replicate 4095 0x00#8).length : Int) = 3 + 4092 ∧
    ({ params with readOversize := .pass } : Params).readOversize = .pass ∧
    (ready [some (.response ack)]).answers = some (.response ack) :: [] := by
  refine ⟨⟨ready_takes _, by decide⟩, by decide, ?_, rfl, rfl⟩
  rw [List.length_replicate]; rfl

theorem witness_OversizeReadIssuesNothing :
    (ready []).takesCommands ∧ 2 ≤ (ready []).grant.burst ∧ (0 : Int) ≤ 65535 ∧ (4093 : Int) ≤ 4093 ∧
    (ready []).params.readOversize = .fault := ⟨ready_takes _, by decide, by decide, by decide, rfl⟩

theorem witness_ReadChecksItsInputs :
    (ready []).takesCommands ∧ 1 ≤ (ready []).grant.burst ∧ ((-1 : Int) < 0 ∨ (65535 : Int) < -1) ∧
    ((65536 : Int) < 0 ∨ (65535 : Int) < 65536) := ⟨ready_takes _, by decide, by decide, by decide⟩

theorem witness_ReadReportsAFailedTransfer :
    (ready [some .fail]).takesCommands ∧ 3 ≤ (ready [some .fail]).grant.burst ∧ failedWith (3 + (0 : Int).toNat) .fail none ∧
    failedWith (3 + (2 : Int).toNat) (.response [0x00#8, 0x00#8, 0x00#8, 0x00#8]) (some 4) :=
  ⟨ready_takes _, by decide, .inl ⟨rfl, rfl⟩, .inr ⟨_, rfl, by decide, rfl⟩⟩

theorem witness_ReadIsHeldUntilAnswered :
    ({ ready [none] with grant := ⟨7, 3⟩ } : State).takesCommands ∧
    ({ ready [none] with grant := ⟨7, 3⟩ } : State).grant.burst = 3 ∧ (ready [none]).answers = none :: [] :=
  ⟨⟨rfl, rfl⟩, rfl, rfl⟩

theorem witness_ReadLeavesChipViewAlone :
    ∃ t, exec (.read 65535 0 false) (ready [some (.response [0x00#8, 0x00#8, 0x00#8])]) = .next t := ⟨_, rfl⟩

/-- The empty payload; and A1's payload of one full chunk, up to the last address that does not overflow. -/
theorem witness_WriteCompletesAsScheduled :
    (writePhases ([] : Bytes).length ≤ (ready []).grant.burst ∧
      answersFit (writeSchedule (BitVec.ofInt 16 0) []) [[0x00#8, 0x00#8, 0x00#8]]) ∧
    (writePhases long.length ≤ (ready []).grant.burst ∧ (64535 : Int) + 1000 * fullChunks long.length ≤ 65535 ∧
      answersFit (writeSchedule (BitVec.ofInt 16 64535) long) [ack, List.replicate 96 0x00#8]) ∧
    (ready []).takesCommands ∧ (∀ m, (ready []).params.maxWriteLen = some m → long.length ≤ m) := by
  refine ⟨⟨by decide, ?_⟩, ⟨?_, ?_, ?_⟩, ready_takes _, ready_unbounded _ _⟩
  · simp [writeSchedule, fullChunks, answersFit, chunkFrame, chunkPayload]
  · rw [writePhases, long_chunks]; decide
  · rw [long_chunks]; decide
  · rw [long_schedule]; exact ⟨by rw [ack_length, long_first], by rw [long_second, List.length_replicate], trivial⟩

theorem witness_ShortWriteIsOneTransfer :
    (ready []).takesCommands ∧ 4 ≤ (ready []).grant.burst ∧ (List.replicate 4092 0x00#8).length ≤ 4092 ∧
    (List.replicate 4095 0x00#8).length = 3 + (List.replicate 4092 0x00#8).length := by
  refine ⟨ready_takes _, by decide, ?_, ?_⟩ <;> simp only [List.length_replicate, le_refl]

/-- A2: the first address that overflows. -/
theorem witness_WriteStopsAtAddressOverflow :
    (ready []).takesCommands ∧ 5 + 3 * 0 ≤ (ready []).grant.burst ∧ (ready []).params.addrOverflow = .fault ∧
    0 < fullChunks long.length ∧ (64536 : Int) + 1000 * (0 : Nat) ≤ 65535 ∧ (65535 : Int) < 64536 + 1000 * ((0 : Nat) + 1) ∧
    answersFit ((writeSchedule (BitVec.ofInt 16 64536) long).take (0 + 1)) [ack] := by
  refine ⟨ready_takes _, by decide, rfl, by rw [long_chunks]; decide, by decide, by decide, ?_⟩
  rw [long_schedule]
  exact ⟨by rw [ack_length, long_first], trivial⟩

/-- The first and the last transfer of two. -/
theorem witness_WriteStopsAtAFailedTransfer :
    (ready []).takesCommands ∧ 4 + 3 * 1 ≤ (ready []).grant.burst ∧ 1 ≤ fullChunks long.length ∧
    (64535 : Int) + 1000 * (1 : Nat) ≤ 65535 ∧
    answersFit ((writeSchedule (BitVec.ofInt 16 64535) long).take 0) [] ∧
    answersFit ((writeSchedule (BitVec.ofInt 16 64535) long).take 1) [ack] ∧
    failedWith (chunkFrame (BitVec.ofInt 16 64535) long 1).length .fail none ∧
    failedWith (chunkFrame (BitVec.ofInt 16 64535) long 0).length (.response []) (some 0) := by
  refine ⟨ready_takes _, by decide, by rw [long_chunks], by decide, ?_, ?_, .inl ⟨rfl, rfl⟩, .inr ⟨_, rfl, ?_, rfl⟩⟩
  · rw [long_schedule]; trivial
  · rw [long_schedule]; exact ⟨by rw [ack_length, long_first], trivial⟩
  · rw [long_first]; decide

/-- The first and the last transfer of two, not answered. -/
theorem witness_WriteIsHeldUntilAnswered :
    ({ ready [none] with grant := ⟨7, 4⟩ } : State).takesCommands ∧
    ({ ready [none] with grant := ⟨7, 4⟩ } : State).grant.burst = 4 + 3 * 0 ∧
    ({ ready [some (.response ack), none] with grant := ⟨7, 7⟩ } : State).grant.burst = 4 + 3 * 1 ∧
    (64535 : Int) + 1000 * (1 : Nat) ≤ 65535 ∧ 1 ≤ fullChunks long.length ∧
    (ready [some (.response ack), none]).answers = ([ack].map fun r => some (.response r)) ++ none :: [] ∧
    answersFit ((writeSchedule (BitVec.ofInt 16 64535) long).take 0) [] ∧
    answersFit ((writeSchedule (BitVec.ofInt 16 64535) long).take 1) [ack] := by
  refine ⟨⟨rfl, rfl⟩, rfl, rfl, by decide, by rw [long_chunks], rfl, ?_, ?_⟩ <;> rw [long_schedule]
  · trivial
  · exact ⟨by rw [ack_length, long_first], trivial⟩

theorem witness_OfferedCommandsWait :
    (closed [.offer (.read 0 0 false)] []).agenda = .offer (.read 0 0 false) :: [] ∧
    (closed [.offer (.read 0 0 false)] []).bus = .closed ∧
    ({ ready [] with agenda := [.offer (.write 0 [] true)] } : State).agenda = .offer (.write 0 [] true) :: [] ∧
    (ready []).bus = .opened := ⟨rfl, rfl, rfl, rfl⟩

theorem witness_WriteChecksItsInputs :
    (ready []).takesCommands ∧ 1 ≤ (ready []).grant.burst ∧ ((-1 : Int) < 0 ∨ (65535 : Int) < -1) ∧
    ((65536 : Int) < 0 ∨ (65535 : Int) < 65536) ∧
    ({ params with maxWriteLen := some 0 } : Params).maxWriteLen = some 0 ∧ 0 < ([0x00#8] : Bytes).length :=
  ⟨ready_takes _, by decide, by decide, by decide, rfl, by decide⟩

/-- The bytes next to the one target cell, at the top of the register space. -/
theorem witness_WriteChangesOnlyItsTarget :
    (∃ t, exec (.write 65535 [0x01#8] false) (ready [some .fail]) = .next t) ∧ 262139 < chipBytes ∧
    inTarget (BitVec.ofInt 16 65535) ([0x01#8] : Bytes).length 262139 = false ∧
    inTarget (BitVec.ofInt 16 65535) ([0x01#8] : Bytes).length 0 = false := ⟨⟨_, rfl⟩, by decide, by decide, by decide⟩

theorem witness_StrideAdvancesOrOverflows :
    (0xFC17#16).toNat + 1000 ≤ 65535 ∧ 65535 < (0xFC18#16).toNat + 1000 := by decide

theorem witness_ScheduleBounds :
    0 < fullChunks long.length ∧ 1 ≤ fullChunks long.length ∧ fullChunks ([] : Bytes).length = 0 ∧
    compose 0x00#8 0x0000#16 [] ∈ writeSchedule 0x0000#16 [] := by
  rw [long_chunks]; decide

/-- A schedule of one frame, and the first address from which the stride wraps. -/
theorem witness_ScheduleAddressesAdvanceByOneStride :
    compose 0x00#8 0xFFFF#16 [] ∈ writeSchedule 0xFFFF#16 [] ∧
    (writeSchedule 0xFC18#16 long)[0]? = some (chunkFrame 0xFC18#16 long 0) ∧
    (writeSchedule 0xFC18#16 long)[0 + 1]? = some (chunkFrame 0xFC18#16 long 1) := by
  refine ⟨by decide, ?_⟩
  rw [long_schedule]; exact ⟨rfl, rfl⟩

theorem witness_ChunkedWritesEqualOneWrite : (0xFC17#16).toNat + 1000 * fullChunks long.length ≤ 65535 := by
  rw [long_chunks]; decide

theorem witness_MemWritePlacesEachByte :
    (3 < ([0x00#8, 0x00#8, 0x00#8, 0x01#8] : Bytes).length ∧ (0xFFFF#16).toNat + 3 / 4 < 65536) ∧
    262139 < 4 * (0xFFFF#16).toNat ∧ 4 * (0xFFFF#16).toNat + ([0x00#8] : Bytes).length ≤ 262141 := by decide

theorem witness_InitialisationOpensTheBus :
    let s := closed [.run 0 0, .accept 0 7 40, .run 0 0, .accept 0 0 0] [true, true, true, true]
    s.bus = .closed ∧ s.init = .openHandle ∧ blockTurn (.run 0 0) = true ∧ blockTurn (.accept 0 7 40) = true ∧
    s.agenda = .run 0 0 :: .accept 0 7 40 :: .run 0 0 :: .accept 0 0 0 :: [] ∧
    s.setterAnswers = true :: true :: true :: true :: [] := ⟨rfl, rfl, rfl, rfl, rfl, rfl⟩

theorem witness_FailedInitialisationIsFinal :
    ((closed [.run 0 0] [false]).bus = .closed ∧ (closed [.run 0 0] [false]).agenda = .run 0 0 :: [] ∧
      (closed [.run 0 0] [false]).setterAnswers = false :: []) ∧
    (blockTurn (.run 0 0) = true ∧ blockTurn (.accept 0 0 0) = true) ∧
    ({ closed [.accept 0 0 0] [] with bus := .initFailed } : State).bus = .initFailed ∧
    (closed [.accept 0 0 0] []).agenda = .accept 0 0 0 :: [] ∧
    (closed [.offer (.read 0 0 false)] []).agenda = .offer (.read 0 0 false) :: [] :=
  ⟨⟨rfl, rfl, rfl⟩, ⟨rfl, rfl⟩, rfl, rfl, rfl⟩

/-- An open block that takes a waiting READ and has it answered. -/
abbrev busy : State :=
  { ready [some (.response [0x00#8, 0x00#8, 0x00#8])] with agenda := [.accept 0 7 40], port := [.read 0 0 true] }

theorem busy_steps : ∃ t, step busy = .next t := ⟨_, rfl⟩

theorem witness_OnlyResetClosesTheBus : (∃ t, step busy = .next t) ∧ busy.bus = .opened ∧ busy.nextTurn ≠ .reset :=
  ⟨busy_steps, rfl, by simp [State.nextTurn]⟩

theorem witness_HistoryOnlyGrows : busy.nextTurn ≠ .reset ∧ ∃ t, step busy = .next t :=
  ⟨by simp [State.nextTurn], busy_steps⟩

/-- A state with one live context, the bus silent. -/
abbrev withOne (c : Context) (turns : List Turn) : State := { ready [none] with contexts := [c], agenda := turns }

theorem withOne_inv (c : Context) (turns : List Turn) (h : c.Inv params) : (withOne c turns).Inv := by
  refine ⟨fun m h => (by cases h), rfl, fun _ => rfl, by simp, fun m h => (by cases h), ?_, rfl⟩
  intro d hd
  rw [List.mem_singleton] at hd
  exact hd ▸ h

/-- A READ just accepted, a READ with its transfer outstanding, a WRITE with its full chunk outstanding, and a WRITE with
its final transfer outstanding. -/
abbrev freshRead : Context := newContext 7 (.read 0 0 false)
abbrev heldRead : Context :=
  { freshRead with frame := some (compose opcRead 0x0000#16 (zeros 0)), chunk := 1, phase := .xferRead }
abbrev heldFull : Context :=
  { newContext 7 (.write 0 long false) with frame := some (compose opcWrite 0x0000#16 long), chunk := 1, phase := .xferFull }
abbrev heldFinal : Context :=
  { newContext 7 (.write 0 [] false) with frame := some (compose opcWrite 0x0000#16 []), chunk := 1, phase := .xferFinal }

theorem freshRead_inv : freshRead.Inv params := newContext_inv _ _ _

theorem heldRead_inv : heldRead.Inv params :=
  ⟨rfl, rfl, 0, rfl, rfl, rfl, rfl, le_refl _, rfl⟩

theorem heldFull_inv : heldFull.Inv params :=
  ⟨rfl, fun h => (by cases h), long, rfl, 0, rfl, ⟨rfl, rfl⟩, by rw [long_chunks]; decide, rfl⟩

theorem heldFinal_inv : heldFinal.Inv params :=
  ⟨rfl, fun h => (by cases h), [], rfl, rfl, ⟨rfl, rfl⟩, rfl⟩

theorem witness_ResetNeedsNoLiveContext :
    (withOne freshRead [.reset]).agenda = .reset :: [] ∧ (withOne freshRead [.reset]).contexts ≠ [] ∧
    (closed [.reset] []).agenda = .reset :: [] ∧ (closed [.reset] []).contexts = [] := ⟨rfl, by simp, rfl, rfl⟩

theorem witness_CommandsWaitAtTheClosedOrFullPort :
    (closed [] []).bus ≠ .opened ∧
    ∃ m, ({ withOne freshRead [] with params := { params with maxContexts := some 1 } } : State).params.maxContexts = some m ∧
      m ≤ (withOne freshRead []).contexts.length := ⟨by decide, 1, rfl, by decide⟩

theorem witness_CommandFrame :
    ∃ t, exec (.write 0 [] true) (ready [some (.response [0x00#8, 0x00#8, 0x00#8])]) = .next t := ⟨_, rfl⟩

theorem witness_StepRunsTheFrameCommand : decode [0x01#8, 0x00#8, 0x00#8] = .ok (.read 0 0 false) := by decide

theorem witness_StepTakesAWaitingCommand :
    busy.bus = .opened ∧ busy.agenda = .accept 0 7 40 :: [] ∧ busy.port[0]? = some (.read 0 0 true) := ⟨rfl, rfl, rfl⟩

theorem witness_StepRunsALiveContext :
    (withOne freshRead [.run 0 2]).bus = .opened ∧ (withOne freshRead [.run 0 2]).agenda = .run 0 2 :: [] ∧
    (withOne freshRead [.run 0 2]).contexts[0]? = some freshRead := ⟨rfl, rfl, rfl⟩

theorem witness_PhasesFollowTheSequencer :
    (withOne freshRead []).Inv ∧ freshRead ∈ (withOne freshRead []).contexts ∧
    ∃ t, phaseStep freshRead.op freshRead (withOne freshRead []) = .next t :=
  ⟨withOne_inv _ _ freshRead_inv, List.mem_singleton_self _, _, rfl⟩

theorem witness_EachContextEndsInOneFittingResult :
    (withOne freshRead []).Inv ∧ freshRead ∈ (withOne freshRead []).contexts ∧
    (∃ t, phaseStep freshRead.op freshRead (withOne freshRead []) = .next t) ∧
    (withOne heldFinal []).Inv ∧ heldFinal ∈ (withOne heldFinal []).contexts ∧
    ∃ t, phaseStep heldFinal.op heldFinal (withOne heldFinal []) = .next t :=
  ⟨withOne_inv _ _ freshRead_inv, List.mem_singleton_self _, ⟨_, rfl⟩, withOne_inv _ _ heldFinal_inv,
    List.mem_singleton_self _, _, rfl⟩

/-- A READ of 0 bytes, its transfer outstanding and the bus about to answer: the phase that retires it. -/
theorem witness_EachContextEndsInOneFittingResult_done :
    let s : State := { withOne heldRead [] with answers := [some (.response [0x00#8, 0x00#8, 0x00#8])] }
    s.Inv ∧ heldRead ∈ s.contexts ∧
    ∃ t, phaseStep heldRead.op heldRead s = .next t ∧ t.phaseOf heldRead.id = .done :=
  ⟨State.Inv_congr _ _ (withOne_inv _ [] heldRead_inv) rfl rfl rfl rfl rfl, List.mem_singleton_self _, _, rfl, rfl⟩

theorem witness_OutstandingTransferIssuesNothing :
    ((withOne heldRead []).Inv ∧ heldRead.phase = .xferRead) ∧ ((withOne heldFull []).Inv ∧ heldFull.phase = .xferFull) ∧
    ((withOne heldFinal []).Inv ∧ heldFinal.phase = .xferFinal) ∧ (withOne heldRead []).answers = none :: [] :=
  ⟨⟨withOne_inv _ _ heldRead_inv, rfl⟩, ⟨withOne_inv _ _ heldFull_inv, rfl⟩, ⟨withOne_inv _ _ heldFinal_inv, rfl⟩, rfl⟩

/-- Beside the context whose turn it is, another one. -/
theorem witness_AContextsTurnLeavesTheOthersAlone :
    let s : State := { withOne freshRead [.run 0 2] with contexts := [freshRead, newContext 8 (.write 0 [] false)] }
    s.bus = .opened ∧ s.agenda = .run 0 2 :: [] ∧ s.contexts[0]? = some freshRead ∧ (∃ t, step s = .next t) ∧
    newContext 8 (.write 0 [] false) ∈ s.contexts ∧ (newContext 8 (.write 0 [] false)).id ≠ freshRead.id :=
  ⟨rfl, rfl, rfl, ⟨_, rfl⟩, by simp, by decide⟩

theorem witness_EveryStepKeepsTheInvariant :
    (withOne freshRead [.run 0 2]).Inv ∧ ∃ t, step (withOne freshRead [.run 0 2]) = .next t :=
  ⟨withOne_inv _ _ freshRead_inv, _, rfl⟩

theorem witness_InvariantRulesOutFaults :
    (withOne heldFinal [.reset]).Inv ∧ (withOne heldFinal [.reset]).bus ≠ .initFailed :=
  ⟨withOne_inv _ _ heldFinal_inv, by decide⟩

theorem witness_EmittedFramesAreLegal :
    (withOne freshRead [.run 0 2]).Inv ∧
    (∀ f ∈ issuedFrames (withOne freshRead [.run 0 2]).history, emittable (withOne freshRead [.run 0 2]).params f) ∧
    ∃ t, step (withOne freshRead [.run 0 2]) = .next t :=
  ⟨withOne_inv _ _ freshRead_inv, fun f hf => by simp [ready, issuedFrames] at hf, _, rfl⟩

end Sys2Proof.Tests
end

section
/-! Proofs of the scope statements (spec/00_scope.md): whose turn a step plays, and what a turn of a live context does. -/

namespace Sys2Proof.Machine

/-- R50: the step draws the first turn of the agenda. -/
theorem step_of_agenda (s : State) (t : Turn) (turns : List Turn) (h : s.agenda = t :: turns) :
    step s = State.play { s with agenda := turns } t := by
  simp only [step, State.nextTurn, State.afterTurn, h]

theorem State.play_opened (s : State) (t : Turn) (h : s.bus = .opened) : s.play t = s.playOpen t := by
  simp only [State.play, h]

/-- R13: the phase function a turn runs is the one of the context's operation. -/
theorem State.playRun_live (s : State) (k burst : Nat) (c : Context) (h : s.contexts[k]? = some c) :
    s.playRun k burst = runPhases (phaseStep c.op) c.id burst s := by
  simp only [State.playRun, h]
  cases c.op with
  | read => rfl
  | write => rfl

/-- Settles O34: with BUS OPEN the turn drawn from the agenda is played as a run of the named context. -/
theorem stepRunsALiveContext : Obligations.StepRunsALiveContext := by
  intro s k burst c turns hbus hagenda hlive
  calc step s
      _ = State.play { s with agenda := turns } (.run k burst) := step_of_agenda s _ turns hagenda
      _ = State.playRun { s with agenda := turns } k burst := State.play_opened _ _ hbus
      _ = runPhases (phaseStep c.op) c.id burst { s with agenda := turns } := State.playRun_live _ k burst c hlive

end Sys2Proof.Machine
end

section
/-! Proofs of the state statements (spec/10_state.md): the invariant of a run, its first state, and the progress it gives. -/

namespace Sys2Proof.Machine

/-! ### The invariant over the turns of a step -/

theorem State.afterTurn_inv (s : State) (hI : s.Inv) : s.afterTurn.Inv :=
  State.Inv_congr s _ hI (by simp) (by simp) (by simp) (by simp) (by simp)

theorem State.waitAtPort_inv (s : State) (i : Instr) (hI : s.Inv) : (s.waitAtPort i).Inv :=
  State.Inv_congr s _ hI rfl rfl rfl rfl rfl

/-- R31, R160: a reset state with no context live fits the invariant, whatever its parameters and ports. -/
theorem State.inv_of_closed (s : State) (hp : s.params.Inv) (hb : s.bus = .closed) (hcfg : s.cfg = none)
    (hc : s.contexts = []) (hchip : s.chip = []) : s.Inv where
  params := hp
  cfg := by simp [hb, hcfg]
  live h := absurd hc h
  ids := by simp [hc]
  room m _ := by simp [hc]
  contexts c h := by simp [hc] at h
  chip := by rw [hchip]; rfl

/-- R162: an initialisation call keeps the invariant, since no context lives while BUS is not OPEN. -/
theorem State.initialise_inv (s : State) (hI : s.Inv) (hb : s.bus ≠ .opened) : s.initialise.Inv := by
  have hnone : s.contexts = [] := by
    by_contra h
    exact hb (hI.live h)
  have hcfg : s.cfg = none := by simpa [hb] using hI.cfg
  obtain ⟨hp, hc, _, hchip, _, hcases⟩ := s.initialise_cases
  refine ⟨hp ▸ hI.params, ?_, fun h => absurd (hc.trans hnone) h, by simp [hc, hnone], by simp [hc, hnone],
    by simp [hc, hnone], hchip ▸ hI.chip⟩
  rcases hcases with ⟨_, _, ⟨hbus, hcfg'⟩ | ⟨hbus, hcfg'⟩⟩ | ⟨_, hbus, hcfg', _⟩
  · rw [hbus, hcfg', if_neg hb, hcfg]
  · rw [hbus, hcfg', if_pos rfl]
  · rw [hbus, hcfg', hcfg, if_neg (by decide)]

/-- Under the invariant, the contexts of a live context's ID are that context alone, so they have its operation. -/
theorem State.Inv.op_of_id {s : State} (hI : s.Inv) {c : Context} (hc : c ∈ s.contexts) :
    ∀ e ∈ s.contexts, e.id = c.id → e.op = c.op :=
  fun e he hid => by rw [ids_nodup_eq s.contexts hI.ids c e hc he hid]

/-- A command keeps the invariant, whether it waits or its context goes through phases. -/
theorem exec_keeps (i : Instr) (s t : State) (hI : s.Inv) (h : exec i s = .next t) : t.Inv := by
  rcases exec_cases i s t h with rfl | ⟨htake, hrun⟩
  · exact s.waitAtPort_inv i hI
  · exact (runPhases_keeps _ _ _ _ t (addContext_inv s i hI htake) (addContext_op s i) hrun).1

/-- The state a turn of the port hands to a command keeps the invariant. -/
theorem State.accepting_inv (s : State) (hI : s.Inv) (p : List Instr) (g : Grant) :
    ({ s with port := p, grant := g } : State).Inv :=
  State.Inv_congr s _ hI rfl rfl rfl rfl rfl

/-- Settles O40, by what each turn of a step can do. -/
theorem everyStepKeepsTheInvariant : Obligations.EveryStepKeepsTheInvariant := by
  intro s t hI h
  have hA := s.afterTurn_inv hI
  rcases step_cases s t h with ⟨_, hc, rfl⟩ | ⟨i, _, rfl⟩ | ⟨_, hb, rfl⟩ | ⟨_, _, rfl⟩ |
    ⟨k, tag, burst, i, _, _, _, hexec⟩ | ⟨k, burst, c, _, _, hk, hrun⟩
  · exact State.inv_of_closed _ hA.params rfl rfl (by simpa using hc) rfl
  · exact s.afterTurn.waitAtPort_inv i hA
  · exact s.afterTurn.initialise_inv hA (by simp [hb])
  · exact hA
  · exact exec_keeps i _ t (s.afterTurn.accepting_inv hA _ _) hexec
  · have hc : c ∈ s.afterTurn.contexts := by simpa using List.mem_of_getElem? hk
    exact (runPhases_keeps c.op c.id burst _ t hA (hA.op_of_id hc) hrun).1

/-- Settles O39: the reset state is closed and empty, and its parameters leave MAX_CONTEXTS unbounded. -/
theorem resetStateKeepsTheInvariant : Obligations.ResetStateKeepsTheInvariant :=
  State.inv_of_closed State.reset (fun m hm => by cases hm) rfl rfl rfl rfl

/-! ### Progress under the invariant -/

/-- A command has a next state: it waits, or its context fits the invariant and its phases have one. -/
theorem exec_total (i : Instr) (s : State) (hI : s.Inv) : ∃ t, exec i s = .next t := by
  rw [exec_command]
  by_cases htake : s.takesCommands
  · rw [s.command_accepted i _ htake]
    exact runPhases_total _ _ _ _ (addContext_inv s i hI htake) (addContext_op s i)
  · refine ⟨_, s.command_waits i _ ?_⟩
    by_cases hb : s.bus = .opened
    · exact .inr (by simpa [State.takesCommands, hb] using htake)
    · exact .inl hb

theorem State.playAccept_total (s : State) (slot tag burst : Nat) (hI : s.Inv) :
    ∃ t, s.playAccept slot tag burst = .next t := by
  unfold State.playAccept
  split
  · exact ⟨s, rfl⟩
  · next i _ => exact exec_total i _ (s.accepting_inv hI _ _)

theorem State.playRun_total (s : State) (slot burst : Nat) (hI : s.Inv) : ∃ t, s.playRun slot burst = .next t := by
  cases hk : s.contexts[slot]? with
  | none => exact ⟨s, by simp [State.playRun, hk]⟩
  | some c =>
    rw [s.playRun_live slot burst c hk]
    exact runPhases_total _ _ _ s hI (hI.op_of_id (List.mem_of_getElem? hk))

/-- R160: what a reset turn answers, by whether a context is live. -/
theorem State.resetBlock_none (s : State) (h : s.contexts = []) :
    s.resetBlock = .next { s with
      bus := .closed, cfg := none, init := .openHandle, history := [], calls := [], chip := [] } := by
  simp [State.resetBlock, h]

theorem State.resetBlock_live (s : State) (h : s.contexts ≠ []) : s.resetBlock = .refused .resetWhileLive := by
  unfold State.resetBlock
  split
  · contradiction
  · rfl

/-- A reset turn is a reset in every value of BUS. -/
theorem State.play_reset (s : State) : s.play .reset = s.resetBlock := by
  unfold State.play
  cases s.bus <;> rfl

/-- Outside INIT_FAILED every turn but a reset has a next state. -/
theorem State.play_total (s : State) (t : Turn) (hI : s.Inv) (hb : s.bus ≠ .initFailed) (ht : t ≠ .reset) :
    ∃ u, s.play t = .next u := by
  unfold State.play
  cases hbus : s.bus with
  | initFailed => exact absurd hbus hb
  | closed =>
    cases t with
    | reset => exact absurd rfl ht
    | offer i => exact ⟨_, rfl⟩
    | accept slot tag burst => exact ⟨_, rfl⟩
    | run slot burst => exact ⟨_, rfl⟩
  | opened =>
    cases t with
    | reset => exact absurd rfl ht
    | offer i => exact ⟨_, rfl⟩
    | accept slot tag burst => exact s.playAccept_total slot tag burst hI
    | run slot burst => exact s.playRun_total slot burst hI

/-- Settles O41: a turn but a reset has a next state, and a reset is refused only with a context live. -/
theorem invariantRulesOutFaults : Obligations.InvariantRulesOutFaults := by
  intro s hI hb
  by_cases ht : s.nextTurn = .reset
  · have hstep : step s = s.afterTurn.resetBlock := by rw [step, ht, State.play_reset]
    by_cases hc : s.contexts = []
    · exact .inl ⟨_, hstep.trans (State.resetBlock_none _ (by simpa using hc))⟩
    · exact .inr ⟨hstep.trans (State.resetBlock_live _ (by simpa using hc)), ht, hc⟩
  · exact .inl (s.afterTurn.play_total s.nextTurn (s.afterTurn_inv hI) (by simpa using hb) ht)

end Sys2Proof.Machine
end

section
/-! DEBUG on whole turns (spec/10_state.md R27, spec/60_exceptions.md R156): every turn answers the same on a state and on
the same state with every trace of DEBUG removed. -/

namespace Sys2Proof.Machine

theorem muted_afterTurn (s : State) : s.afterTurn.muted = s.muted.afterTurn := by
  have hagenda : s.muted.agenda = s.agenda := rfl
  unfold State.afterTurn
  rw [hagenda]
  cases s.agenda <;> rfl

theorem muted_waitAtPort (s : State) (i : Instr) : (s.waitAtPort i).muted = s.muted.waitAtPort i.quiet := by
  simp [State.waitAtPort, State.muted]

theorem muted_waits (s : State) (i : Instr) : (s.waitAtPort i).muted = (s.muted.waitAtPort i).muted := by
  rw [muted_waitAtPort, muted_waitAtPort, muted_muted]

theorem muted_afterSetter (s : State) : s.afterSetter.muted = s.muted.afterSetter := by
  have hanswers : s.muted.setterAnswers = s.setterAnswers := rfl
  unfold State.afterSetter
  rw [hanswers]
  cases s.setterAnswers <;> rfl

theorem muted_afterInitOk (s : State) : s.afterInitOk.muted = s.muted.afterInitOk := by
  have hinit : s.muted.init = s.init := rfl
  unfold State.afterInitOk
  rw [hinit]
  cases s.init <;> rfl

theorem muted_calls (s : State) (l : List HandleCall) :
    ({ s with calls := l } : State).muted = { s.muted with calls := l } := rfl

theorem muted_initialise (s : State) : s.initialise.muted = s.muted.initialise := by
  have hok : s.muted.nextSetterOk = s.nextSetterOk := rfl
  unfold State.initialise
  rw [hok]
  cases s.nextSetterOk with
  | true =>
    simp only [if_true, muted_afterInitOk, muted_calls, muted_afterSetter]
    rfl
  | false =>
    simp only [Bool.false_eq_true, if_false, muted_record, ← muted_afterSetter]
    rfl

theorem mutedAnswer_next (u v : State) (h : u.muted = v.muted) : mutedAnswer (.next u) = mutedAnswer (.next v) := by
  rw [mutedAnswer, mutedAnswer, h]

/-- The reset values of R160 hold no trace of DEBUG; the port, which stays, is muted like before. -/
theorem muted_resetValues (s : State) :
    ({ s with bus := .closed, cfg := none, init := .openHandle, history := [], calls := [], chip := [] } : State).muted =
      ({ s.muted with
        bus := .closed, cfg := none, init := .openHandle, history := [], calls := [], chip := [] } : State).muted := by
  simp [State.muted, quiet_quiet]

theorem muted_accepting (s : State) (slot : Nat) (g : Grant) :
    ({ s with port := s.port.eraseIdx slot, grant := g } : State).muted =
      ({ s.muted with port := s.muted.port.eraseIdx slot, grant := g } : State).muted := by
  simp [State.muted, quiet_quiet, List.eraseIdx_map, withoutDiags_idem]

theorem muted_resetBlock (s : State) : mutedAnswer s.resetBlock = mutedAnswer s.muted.resetBlock := by
  by_cases hc : s.contexts = []
  · rw [s.resetBlock_none hc, s.muted.resetBlock_none (by simp [muted_contexts, hc])]
    exact mutedAnswer_next _ _ (muted_resetValues s)
  · rw [s.resetBlock_live hc, s.muted.resetBlock_live (by simpa [muted_contexts] using hc)]

theorem muted_playAccept (s : State) (slot tag burst : Nat) :
    mutedAnswer (s.playAccept slot tag burst) = mutedAnswer (s.muted.playAccept slot tag burst) := by
  have hport : s.muted.port[slot]? = s.port[slot]?.map Instr.quiet := by simp [State.muted]
  unfold State.playAccept
  rw [hport]
  cases s.port[slot]? with
  | none => simp only [Option.map_none, mutedAnswer, muted_muted]
  | some i =>
    exact muted_exec i i.quiet _ _ (quiet_quiet i).symm (muted_accepting s slot ⟨tag, burst⟩)

theorem muted_playRun (s : State) (slot burst : Nat) :
    mutedAnswer (s.playRun slot burst) = mutedAnswer (s.muted.playRun slot burst) := by
  have hlive : s.muted.contexts[slot]? = s.contexts[slot]?.map mute := by simp [muted_contexts]
  cases hk : s.contexts[slot]? with
  | none => simp only [State.playRun, hlive, hk, Option.map_none, mutedAnswer, muted_muted]
  | some c =>
    rw [s.playRun_live slot burst c hk, s.muted.playRun_live slot burst (mute c) (by rw [hlive, hk]; rfl)]
    exact muted_run c.op c.id burst s s.muted (muted_muted s).symm

theorem muted_play (s : State) (t : Turn) : mutedAnswer (s.play t) = mutedAnswer (s.muted.play t) := by
  have hinit : s.initialise.muted = s.muted.initialise.muted := by
    rw [← muted_initialise, muted_muted]
  have hb : s.muted.bus = s.bus := rfl
  unfold State.play
  rw [hb]
  cases s.bus with
  | closed =>
    cases t with
    | offer i => exact mutedAnswer_next _ _ (muted_waits s i)
    | accept slot tag burst => exact mutedAnswer_next _ _ hinit
    | run slot burst => exact mutedAnswer_next _ _ hinit
    | reset => exact muted_resetBlock s
  | opened =>
    cases t with
    | offer i => exact mutedAnswer_next _ _ (muted_waits s i)
    | accept slot tag burst => exact muted_playAccept s slot tag burst
    | run slot burst => exact muted_playRun s slot burst
    | reset => exact muted_resetBlock s
  | initFailed =>
    cases t with
    | offer i => exact mutedAnswer_next _ _ (muted_waits s i)
    | accept slot tag burst => rfl
    | run slot burst => rfl
    | reset => exact muted_resetBlock s

/-- Settles O44: the turn drawn does not depend on DEBUG, and playing it leads to the same answer. -/
theorem debugChangesNothingElse : Obligations.DebugChangesNothingElse := by
  intro s
  have hturn : s.muted.nextTurn = s.nextTurn := rfl
  rw [step, step, hturn, ← muted_afterTurn]
  exact muted_play s.afterTurn s.nextTurn

end Sys2Proof.Machine
end

section
/-! What a turn leaves unchanged (spec/10_state.md R26, R29, R30), and where one phase leads (R24). -/

namespace Sys2Proof.Machine

/-! ### The frame of a command and of a step -/

/-- The frame of the phases a turn grants an accepted command. -/
theorem accepted_frame (i : Instr) (s t : State)
    (h : runPhases (phaseStep (Instr.opOf i)) s.newId s.grant.burst (s.addContext (newContext s.newId i)) = .next t) :
    MoveFrame s.newId (s.addContext (newContext s.newId i)) t :=
  runPhases_frame _ _ _ _ t (fun c u v => phaseStep_frame _ c u v) h

/-- Settles O31: a command that waits changes the port alone; an accepted one moves no context but its own. -/
theorem commandFrame : Obligations.CommandFrame := by
  intro i s t h
  rcases exec_cases i s t h with rfl | ⟨_, hrun⟩
  · exact ⟨sameSurroundings_refl s, .inl rfl, ⟨[], by simp⟩, .inr rfl, ⟨0, rfl⟩⟩
  · have hF := accepted_frame i s t hrun
    have hid := newContext_id s.newId i
    have hown := contextsMove_youngest s.contexts t.contexts (newContext s.newId i)
      (by rw [hid]; exact s.newId_free) (by rw [hid]; exact hF.contexts)
    rw [hid] at hown
    exact ⟨hF.surroundings, hown, hF.history, .inl hF.port, hF.answers⟩

theorem exec_surroundings (i : Instr) (s t : State) (h : exec i s = .next t) : sameSurroundings s t := by
  obtain ⟨hsur, _⟩ := commandFrame i s t h
  exact hsur

theorem exec_history (i : Instr) (s t : State) (h : exec i s = .next t) : ∃ es, t.history = s.history ++ es := by
  obtain ⟨_, _, hhist, _⟩ := commandFrame i s t h
  exact hhist

/-- The frame of a turn of a live context. -/
theorem run_frame (c : Context) (burst : Nat) (s t : State)
    (h : runPhases (phaseStep c.op) c.id burst s = .next t) : MoveFrame c.id s t :=
  runPhases_frame _ _ _ s t (fun c u v => phaseStep_frame _ c u v) h

/-- A turn that keeps the parameters, BUS and CFG once it is drawn keeps those of the state it was drawn in. -/
theorem bus_kept_of_afterTurn (s t : State) (hparams : t.params = s.afterTurn.params) (hbus : t.bus = s.afterTurn.bus)
    (hcfg : t.cfg = s.afterTurn.cfg) :
    t.params = s.params ∧ (s.bus = .opened → s.nextTurn ≠ .reset → t.bus = .opened ∧ t.cfg = s.cfg) :=
  ⟨hparams.trans s.afterTurn_params, fun hb _ => ⟨(hbus.trans s.afterTurn_bus).trans hb, hcfg.trans s.afterTurn_cfg⟩⟩

/-- Settles O28: a reset and an initialisation call keep the parameters, and every other turn keeps BUS and CFG too. -/
theorem onlyResetClosesTheBus : Obligations.OnlyResetClosesTheBus := by
  intro s t h
  rcases step_cases s t h with ⟨hturn, _, rfl⟩ | ⟨i, _, rfl⟩ | ⟨_, hclosed, rfl⟩ | ⟨_, _, rfl⟩ |
    ⟨k, tag, burst, i, _, _, _, hexec⟩ | ⟨k, burst, c, _, _, _, hrun⟩
  · exact ⟨s.afterTurn_params, fun _ hne => absurd hturn hne⟩
  · exact bus_kept_of_afterTurn s _ rfl rfl rfl
  · obtain ⟨hparams, _⟩ := s.afterTurn.initialise_cases
    refine ⟨hparams.trans s.afterTurn_params, fun hb _ => ?_⟩
    rw [hclosed] at hb
    cases hb
  · exact bus_kept_of_afterTurn s _ rfl rfl rfl
  · obtain ⟨hparams, hbus, hcfg, _⟩ := exec_surroundings i _ t hexec
    exact bus_kept_of_afterTurn s t hparams hbus hcfg
  · obtain ⟨hparams, hbus, hcfg, _⟩ := (run_frame c burst _ t hrun).surroundings
    exact bus_kept_of_afterTurn s t hparams hbus hcfg

/-- R136: an initialisation call adds at most its failure to the history. -/
theorem State.initialise_history (s : State) : ∃ es, s.initialise.history = s.history ++ es := by
  obtain ⟨_, _, _, _, _, ⟨_, hkept, _⟩ | ⟨_, _, _, hadded⟩⟩ := s.initialise_cases
  · exact ⟨[], by simp [hkept]⟩
  · exact ⟨_, hadded⟩

/-- Settles O43: of the turns only a reset does more to the history than to add to it. -/
theorem historyOnlyGrows : Obligations.HistoryOnlyGrows := by
  intro s t hne h
  rw [← s.afterTurn_history]
  rcases step_cases s t h with ⟨hturn, _, _⟩ | ⟨i, _, rfl⟩ | ⟨_, _, rfl⟩ | ⟨_, _, rfl⟩ |
    ⟨k, tag, burst, i, _, _, _, hexec⟩ | ⟨k, burst, c, _, _, _, hrun⟩
  · exact absurd hturn hne
  · exact ⟨[], by simp⟩
  · exact s.afterTurn.initialise_history
  · exact ⟨[], by simp⟩
  · obtain ⟨es, hes⟩ := exec_history i _ t hexec
    exact ⟨es, hes⟩
  · exact (run_frame c burst _ t hrun).history

/-! ### Where a phase leads -/

/-- Where a context stands depends on the live contexts alone. -/
theorem State.phaseOf_congr (s t : State) (id : Nat) (h : t.contexts = s.contexts) : t.phaseOf id = s.phaseOf id := by
  simp only [State.phaseOf, State.findContext, h]

theorem State.phaseOf_retire (s : State) (id : Nat) : (s.retire id).phaseOf id = .done := by
  have hnone : (s.retire id).findContext id = none := (s.retire id).findContext_free id fun d hd => by
    simpa using (List.mem_filter.1 hd).2
  rw [State.phaseOf, hnone]

/-- Settles O35: the phase stays, moves to one the sequencer lets it lead to, or ends in DONE. -/
theorem phasesFollowTheSequencer : Obligations.PhasesFollowTheSequencer := by
  intro s t c hI hc h
  have hfind := s.findContext_mem c hI.ids hc
  rcases (phaseStep_move s t c (hI.contexts c hc) h).move with ⟨hsame, hlead⟩ |
    ⟨c', hid, _, _, _, _, _, hlead, hput⟩ | ⟨hretired, hlead⟩
  · rw [State.phaseOf_congr s t _ hsame, State.phaseOf, hfind]
    exact hlead
  · rw [State.phaseOf_congr (s.putContext c') t _ (by rw [hput, State.putContext_contexts, hid]),
      s.phaseOf_put c c' hid ⟨c, hfind⟩]
    exact hlead
  · rw [State.phaseOf_congr (s.retire c.id) t _ hretired, s.phaseOf_retire]
    exact hlead

end Sys2Proof.Machine
end

section
/-! Commands held by a silent bus (spec/10_state.md R24, R25, R29; spec/40_frame_composer.md R84), and the answered full
chunks before a held WRITE (spec/42_write_splitter.md R110). -/

namespace Sys2Proof.Machine

/-! ### A silent poll -/

/-- R84: a poll that finds no answer uses the answer up and changes nothing else. -/
theorem State.pollTransfer_silent (s : State) (c : Context) (cur wire : Bytes) (k : Bytes → State → State)
    (rest : List (Option BusOutcome)) (ha : s.answers = none :: rest) :
    s.pollTransfer c cur wire k = { s with answers := rest } := by
  simp [State.pollTransfer, s.nextOutcome_cons _ rest ha, s.afterOutcome_cons _ rest ha]

/-- The last phase of a grant, for the youngest context. -/
theorem runPhases_one (phase : Context → State → Answer) (s t : State) (c : Context) (h : s.IdFree c.id)
    (hp : phase c (s.addContext c) = .next t) : runPhases phase c.id 1 (s.addContext c) = .next t :=
  runPhases_add phase c.id 0 s t c rfl h hp

/-! ### A READ held in XFER_READ -/

/-- R131: valid operands of a READ raise no input error. -/
theorem readInputError_none (id : Nat) (a n : Int) (h0 : 0 ≤ a) (h1 : a ≤ 65535) (hn : 0 ≤ n) :
    readInputError id a n = none := by
  simp [readInputError, addressValid, h0, h1, hn]

/-- R93: a READ within the limit, or under the policy `pass`, is not too long. -/
theorem readTooLong_false (p : OversizePolicy) (n : Int) (h : n ≤ 4092 ∨ p = .pass) : readTooLong p n = false := by
  cases p with
  | pass => rfl
  | fault =>
    have hn : n ≤ 4092 := by simpa using h
    simp only [readTooLong, transactionLimit, headerLen, decide_eq_false_iff_not]
    omega

/-- R84: the outstanding transfer of a READ, not answered at the next poll. -/
theorem read_held (s : State) (c : Context) (n : Int) (rest : List (Option BusOutcome)) (h : s.IdFree c.id)
    (ha : s.answers = none :: rest) :
    runPhases readPhase c.id 1 (s.addContext (readIssued c n)) =
      .next (State.addContext { s with answers := rest } (readIssued c n)) := by
  refine runPhases_one readPhase s _ (readIssued c n) h ?_
  rw [readTransfer_silent _ _ _ rfl rfl (State.nextOutcome_cons (s.addContext (readIssued c n)) none rest ha),
    State.afterOutcome_cons (s.addContext (readIssued c n)) none rest ha]
  rfl

/-- Settles O11: two phases issue the transfer, and the third finds no answer. -/
theorem readIsHeldUntilAnswered : Obligations.ReadIsHeldUntilAnswered := by
  intro s a n g rest htake hburst h0 h1 hn hlen ha
  have hissue := read_to_issue s (newContext s.newId (.read a n g)) n 1 s.newId_free htake.1 rfl rfl
    (readInputError_none _ a n h0 h1 hn) (readTooLong_false _ n hlen)
  have hheld := read_held (s.record (issueEvents s.newId .read g 0 (encode (.read a n g))))
    (newContext s.newId (.read a n g)) n rest s.newId_free ha
  rw [exec_command, s.command_accepted _ _ htake, hburst]
  exact hissue.trans hheld

/-! ### The full chunks of a WRITE, answered -/

/-- The context of the WRITE `c` of payload `d` as it comes to phase DECIDE for transfer `k` (R110's induction); `c` is the
context acceptance created. -/
def writeAt (c : Context) (d : Bytes) (k : Nat) : Context :=
  { c with
    addr := chunkAddr c.addr k, frame := some (compose opcWrite (chunkAddr c.addr k) (d.drop (4000 * k))), chunk := k,
    phase := .decide }

/-- What transfers `k .. k + n - 1` of the WRITE `c`, all answered, leave of the state: their events, their MemWrites, and
the bus answers after theirs. -/
def State.afterChunks (s : State) (c : Context) (d : Bytes) (k n : Nat) (resps : List Bytes)
    (rest : List (Option BusOutcome)) : State :=
  { s with
    answers := rest
    chip := (List.range' k n).foldl (fun m j => memWrite m (chunkAddr c.addr j) (chunkPayload d j)) s.chip
    history := s.history ++
      exchangeEvents c.id .write c.dbg k (((List.range' k n).map (chunkFrame c.addr d)).zip resps) }

/-- R105, R110: the WRITE from address `a` on comes to transfer `k` without AddressOverflow. -/
def strideReaches (p : OverflowPolicy) (a : Addr) (k : Nat) : Prop := p = .wrap ∨ a.toNat + 1000 * k ≤ 65535

theorem strideReaches_of_le (p : OverflowPolicy) (a : Addr) (j k : Nat) (hjk : j ≤ k) (h : strideReaches p a k) :
    strideReaches p a j :=
  h.imp_right (Nat.add_le_add_left (Nat.mul_le_mul_left 1000 hjk) a.toNat).trans

/-- R105, R110: the stride leads to the next of R110's addresses. -/
theorem strideNext_chunkAddr (p : OverflowPolicy) (a : Addr) (k : Nat) (h : strideReaches p a (k + 1)) :
    strideNext p (chunkAddr a k) = some (chunkAddr a (k + 1)) := by
  rw [← chunkAddr_succ]
  rcases h with rfl | h
  · exact strideNext_wrap _
  · have hmod := Nat.mod_le (a.toNat + 1000 * k) 65536
    rw [← chunkAddr_toNat] at hmod
    have hlow : (chunkAddr a k).toNat ≤ 64535 := by omega
    exact strideNext_below p _ (Nat.add_le_add_right hlow 1000)

/-- R110: below `K` the current frame reaches the limit and its full chunk is transfer `k`'s frame. -/
theorem writeAt_full (a : Addr) (d : Bytes) (k : Nat) (hk : k < fullChunks d.length) :
    ¬(compose opcWrite (chunkAddr a k) (d.drop (4000 * k))).length < transactionLimit ∧
      fullChunk (compose opcWrite (chunkAddr a k) (d.drop (4000 * k))) = chunkFrame a d k := by
  have hlen := (lt_fullChunks_iff d.length k).1 hk
  refine ⟨by simp; omega, ?_⟩
  rw [fullChunk_compose, chunkFrame, chunkPayload_full d k hk]

/-- R110: at `K` the current frame is below the limit and is transfer `K`'s frame. -/
theorem writeAt_final (a : Addr) (d : Bytes) (k : Nat) (hk : ¬k < fullChunks d.length) :
    (compose opcWrite (chunkAddr a k) (d.drop (4000 * k))).length < transactionLimit ∧
      compose opcWrite (chunkAddr a k) (d.drop (4000 * k)) = chunkFrame a d k := by
  have hlen := mt (lt_fullChunks_iff d.length k).2 hk
  refine ⟨by simp; omega, ?_⟩
  rw [chunkFrame, chunkPayload_final d k hk]

theorem State.afterChunks_one (s : State) (c : Context) (d resp : Bytes) (k : Nat) (rest : List (Option BusOutcome)) :
    s.afterChunks c d k 1 [resp] rest =
      State.record { s with answers := rest, chip := memWrite s.chip (chunkAddr c.addr k) (chunkPayload d k) }
        (transferEvents c.id .write c.dbg k (chunkFrame c.addr d k) (.response resp)) := by
  simp [State.afterChunks, State.record, exchangeEvents]

theorem State.afterChunks_zero (s : State) (c : Context) (d : Bytes) (k : Nat) (rest : List (Option BusOutcome))
    (ha : s.answers = rest) : s.afterChunks c d k 0 [] rest = s := by
  simp [State.afterChunks, exchangeEvents, ← ha]

/-- One answered transfer before `n` others makes `n + 1`. -/
theorem State.afterChunks_succ (s : State) (c : Context) (d resp : Bytes) (k n : Nat) (resps : List Bytes)
    (r rest : List (Option BusOutcome)) :
    (s.afterChunks c d k 1 [resp] r).afterChunks c d (k + 1) n resps rest =
      s.afterChunks c d k (n + 1) (resp :: resps) rest := by
  simp [State.afterChunks, exchangeEvents, List.range'_succ]

/-- R104, R105: full chunk `k` issued and answered, and the address advanced: three phases. -/
theorem write_chunk_answered (s : State) (c : Context) (d resp : Bytes) (k b : Nat) (rest : List (Option BusOutcome))
    (h : s.IdFree c.id) (hb : s.bus = .opened) (hop : c.op = .write) (hk : k < fullChunks d.length)
    (hreach : strideReaches s.params.addrOverflow c.addr (k + 1))
    (ha : s.answers = some (.response resp) :: rest) (hr : resp.length = (chunkFrame c.addr d k).length) :
    runPhases writePhase c.id (b + 3) (s.addContext (writeAt c d k)) =
      runPhases writePhase c.id b ((s.afterChunks c d k 1 [resp] rest).addContext (writeAt c d (k + 1))) := by
  obtain ⟨hlimit, hchunk⟩ := writeAt_full c.addr d k hk
  have htransfer := write_full_answered s (writeAt c d k) _ resp (b + 1) rest h hb rfl hop rfl hlimit ha
    (by rw [hchunk]; exact hr)
  have hadvance := writeAdvance_ok (s.afterChunks c d k 1 [resp] rest)
    { writeAt c d k with chunk := k + 1, phase := .advance } _ _ h rfl rfl (strideNext_chunkAddr _ _ k hreach)
  rw [hchunk] at htransfer
  rw [remainder_compose, List.drop_drop] at hadvance
  refine htransfer.trans ?_
  rw [s.afterChunks_one] at hadvance ⊢
  exact runPhases_add writePhase c.id b _ _ _ rfl h hadvance

/-- R104, R110: full chunks `k .. k + n - 1` of a WRITE, each answered with its frame's length: three phases each. -/
theorem write_chunks_answered (c : Context) (d : Bytes) (b : Nat) (rest : List (Option BusOutcome)) (hop : c.op = .write) :
    ∀ (n k : Nat) (s : State) (resps : List Bytes), s.IdFree c.id → s.bus = .opened → k + n ≤ fullChunks d.length →
      strideReaches s.params.addrOverflow c.addr (k + n) →
      s.answers = (resps.map fun r => some (.response r)) ++ rest →
      answersFit ((List.range' k n).map (chunkFrame c.addr d)) resps →
      runPhases writePhase c.id (b + 3 * n) (s.addContext (writeAt c d k)) =
        runPhases writePhase c.id b ((s.afterChunks c d k n resps rest).addContext (writeAt c d (k + n))) := by
  intro n
  induction n with
  | zero =>
    intro k s resps _ _ _ _ ha hfit
    cases resps with
    | nil => simp [State.afterChunks_zero s c d k rest ha]
    | cons r rs => cases hfit
  | succ n ih =>
    intro k s resps h hb hk hreach ha hfit
    rw [List.range'_succ] at hfit
    cases resps with
    | nil => cases hfit
    | cons r rs =>
      obtain ⟨hr, hfit⟩ := hfit
      rw [show k + (n + 1) = k + 1 + n by omega] at hk hreach ⊢
      have hfirst := write_chunk_answered s c d r k (b + 3 * n) _ h hb hop (by omega)
        (strideReaches_of_le _ _ _ _ (by omega) hreach) ha hr
      have hothers := ih (k + 1) (s.afterChunks c d k 1 [r] (rs.map (fun r => some (.response r)) ++ rest)) rs h hb hk
        hreach rfl hfit
      rw [State.afterChunks_succ] at hothers
      exact hfirst.trans hothers

/-! ### A WRITE held in XFER_FULL or XFER_FINAL -/

/-- R103, R104: the phase the issue of transfer `k` leads to. -/
def transferPhase (d : Bytes) (k : Nat) : Phase := if k < fullChunks d.length then .xferFull else .xferFinal

/-- R103, R104, R110: phase DECIDE issues transfer `k`'s frame. -/
theorem writeDecide_chunk (s : State) (c : Context) (d : Bytes) (k : Nat) (h : s.IdFree c.id) (hb : s.bus = .opened) :
    writePhase (writeAt c d k) (s.addContext (writeAt c d k)) =
      .next ((s.record (issueEvents c.id c.op c.dbg k (chunkFrame c.addr d k))).addContext
        (writeIssued (writeAt c d k) (transferPhase d k))) := by
  by_cases hk : k < fullChunks d.length
  · obtain ⟨hlimit, hchunk⟩ := writeAt_full c.addr d k hk
    rw [transferPhase, if_pos hk, ← hchunk]
    exact writeDecide_full s (writeAt c d k) _ h hb rfl rfl hlimit
  · obtain ⟨hlimit, hchunk⟩ := writeAt_final c.addr d k hk
    rw [transferPhase, if_neg hk, ← hchunk]
    exact writeDecide_final s (writeAt c d k) _ h hb rfl rfl hlimit

/-- R83, R84: a WRITE's outstanding transfer, not answered at the poll. -/
theorem writeTransfer_silent (s : State) (c : Context) (d f : Bytes) (k : Nat) (rest : List (Option BusOutcome))
    (hp : c.phase = transferPhase d k) (hd : c.data = some d) (hf : c.frame = some f) (ha : s.answers = none :: rest) :
    writePhase c s = .next { s with answers := rest } := by
  unfold transferPhase at hp
  split at hp
  · rw [writePhase_xferFull c s hp, writeFull, withFrame_some c f _ hf, s.pollTransfer_silent c _ _ _ rest ha]
  · rw [writePhase_xferFinal c s hp, writeFinal, withData_some c d _ hd, withFrame_some c f _ hf,
      s.pollTransfer_silent c _ _ _ rest ha]

/-- R84, R110: transfer `k` of a WRITE issued and not answered at the next poll: two phases. -/
theorem write_held (s : State) (c : Context) (d : Bytes) (k : Nat) (rest : List (Option BusOutcome)) (h : s.IdFree c.id)
    (hb : s.bus = .opened) (hd : c.data = some d) (ha : s.answers = none :: rest) :
    runPhases writePhase c.id 2 (s.addContext (writeAt c d k)) =
      .next (State.addContext
        (State.record { s with answers := rest } (issueEvents c.id c.op c.dbg k (chunkFrame c.addr d k)))
        (writeIssued (writeAt c d k) (transferPhase d k))) := by
  have hdecide := runPhases_add writePhase c.id 1 s _ (writeAt c d k) rfl h (writeDecide_chunk s c d k h hb)
  have hpoll := writeTransfer_silent
    ((s.record (issueEvents c.id c.op c.dbg k (chunkFrame c.addr d k))).addContext
      (writeIssued (writeAt c d k) (transferPhase d k)))
    (writeIssued (writeAt c d k) (transferPhase d k)) d _ k rest rfl hd rfl ha
  exact hdecide.trans (runPhases_one writePhase _ _ _ h hpoll)

/-- R131: valid operands of a WRITE raise no input error. -/
theorem writeInputError_none (p : Params) (id : Nat) (a : Int) (d : Bytes) (h0 : 0 ≤ a) (h1 : a ≤ 65535)
    (hlen : ∀ m, p.maxWriteLen = some m → d.length ≤ m) : writeInputError p id a d = none := by
  have hshort : writeTooLong p.maxWriteLen d.length = false := by
    cases hm : p.maxWriteLen with
    | none => rfl
    | some m => simpa [writeTooLong] using hlen m hm
  simp [writeInputError, addressValid, h0, h1, hshort]

/-- R100: CHECK and COMPOSE bring an accepted WRITE to transfer 0: two phases. -/
theorem write_to_first_chunk (s : State) (id : Nat) (a : Int) (d : Bytes) (g : Bool) (b : Nat) (h : s.IdFree id)
    (h0 : 0 ≤ a) (h1 : a ≤ 65535) (hlen : ∀ m, s.params.maxWriteLen = some m → d.length ≤ m) :
    runPhases writePhase id (b + 2) (s.addContext (newContext id (.write a d g))) =
      runPhases writePhase id b (s.addContext (writeAt (newContext id (.write a d g)) d 0)) := by
  have hdecide := write_to_decide s (newContext id (.write a d g)) d b h rfl rfl
    (writeInputError_none _ _ a d h0 h1 hlen)
  rw [writeAt, chunkAddr_zero]
  exact hdecide

/-- R110: the first transfers of the schedule, by their numbers. -/
theorem take_writeSchedule (a : Addr) (d : Bytes) (k : Nat) (hk : k ≤ fullChunks d.length + 1) :
    (writeSchedule a d).take k = (List.range' 0 k).map (chunkFrame a d) := by
  rw [writeSchedule, ← List.map_take, List.take_range, Nat.min_eq_left hk, List.range_eq_range']

/-- Settles O45: CHECK and COMPOSE, then `k` answered full chunks, then transfer `k` issued and not answered. -/
theorem writeIsHeldUntilAnswered : Obligations.WriteIsHeldUntilAnswered := by
  intro s a d g k resps rest htake hburst h0 h1 hlen hover hk ha hfit
  have haddr : ((BitVec.ofInt 16 a).toNat : Int) = a :=
    Sys2Proof.ofInt_toNat_of_inRange a (by simp [addressInRange, h0, h1])
  have hreach : strideReaches s.params.addrOverflow (BitVec.ofInt 16 a) (0 + k) :=
    hover.imp_right fun h => by omega
  rw [take_writeSchedule _ _ _ (by omega)] at hfit ⊢
  have hfirst := write_to_first_chunk s s.newId a d g (2 + 3 * k) s.newId_free h0 h1 hlen
  have hchunks := write_chunks_answered (newContext s.newId (.write a d g)) d 2 (none :: rest) rfl k 0 s resps
    s.newId_free htake.1 (by omega) hreach ha hfit
  have hheld := write_held (s.afterChunks (newContext s.newId (.write a d g)) d 0 k resps (none :: rest))
    (newContext s.newId (.write a d g)) d (0 + k) rest s.newId_free htake.1 rfl rfl
  rw [exec_command, s.command_accepted _ _ htake, hburst, show 4 + 3 * k = 2 + 3 * k + 2 by omega]
  refine (hfirst.trans (hchunks.trans hheld)).trans ?_
  simp only [State.afterChunks, chipAfter, Nat.zero_add, List.range_eq_range', State.record, State.addContext]
  rfl

end Sys2Proof.Machine
end

section
/-! Reset and initialisation (spec/70_reset_and_hazards.md R160 to R162): what the block's state is after each. -/

namespace Sys2Proof.Machine

/-- Settles O25: each value is a field of the reset state as written down. -/
theorem resetValues : Obligations.ResetValues :=
  ⟨rfl, rfl, rfl, rfl, rfl, rfl, fun _ => rfl⟩

/-- Settles O29: the turn is a reset in every value of BUS, and is refused exactly with a context live. -/
theorem resetNeedsNoLiveContext : Obligations.ResetNeedsNoLiveContext := by
  intro s turns hagenda
  have hstep : step s = State.resetBlock { s with agenda := turns } := by
    rw [step_of_agenda s _ turns hagenda, State.play_reset]
  refine ⟨fun hlive => hstep.trans (State.resetBlock_live _ hlive), fun hnone => ?_⟩
  simpa only [hnone] using hstep.trans (State.resetBlock_none { s with agenda := turns } hnone)

/-! ### The four calls of the initialisation -/

/-- The closed block `s` with call `i` of the sequence next, the calls `cs` made, and these turns and answers to come. -/
def State.atCall (s : State) (i : InitStep) (cs : List HandleCall) (turns : List Turn) (oks : List Bool) : State :=
  { s with init := i, calls := cs, agenda := turns, setterAnswers := oks }

/-- R161, R162: on a turn of the block's own with BUS CLOSED the next call of the sequence is made, here with success. -/
theorem step_atCall (s : State) (i : InitStep) (cs : List HandleCall) (t : Turn) (turns : List Turn) (oks : List Bool)
    (hb : s.bus = .closed) (ht : blockTurn t = true) :
    step (s.atCall i cs (t :: turns) (true :: oks)) =
      .next (s.atCall i (cs ++ [initCall s.params i]) turns oks).afterInitOk := by
  have hplay : (s.atCall i cs turns (true :: oks)).play t = .next (s.atCall i cs turns (true :: oks)).initialise := by
    have hclosed : (s.atCall i cs turns (true :: oks)).bus = .closed := hb
    unfold State.play
    rw [hclosed]
    cases t with
    | offer i => cases ht
    | accept slot tag burst => rfl
    | run slot burst => rfl
    | reset => cases ht
  exact (step_of_agenda _ t turns rfl).trans hplay

/-- A run that can take a step goes on from there. -/
theorem run_of_step (M : Host.Core) (s t : M.State) (n : Nat) (h : M.step s = .next t) : M.run (n + 1) s = M.run n t := by
  simp only [Host.Core.run, h]

/-- Settles O26: four steps, each one successful call; the last opens the bus. -/
theorem initialisationOpensTheBus : Obligations.InitialisationOpensTheBus := by
  intro s t1 t2 t3 t4 turns oks hb hinit h1 h2 h3 h4 hagenda hok
  have hs : s = s.atCall .openHandle s.calls (t1 :: t2 :: t3 :: t4 :: turns) (true :: true :: true :: true :: oks) := by
    rw [State.atCall, ← hinit, ← hagenda, ← hok]
  have hopen := step_atCall s .openHandle s.calls t1 (t2 :: t3 :: t4 :: turns) (true :: true :: true :: oks) hb h1
  have hbits cs := step_atCall s .setBits cs t2 (t3 :: t4 :: turns) (true :: true :: oks) hb h2
  have hspeed cs := step_atCall s .setSpeed cs t3 (t4 :: turns) (true :: oks) hb h3
  have hmode cs := step_atCall s .setMode cs t4 turns oks hb h4
  rw [← hs] at hopen
  refine (run_of_step core _ _ 3 hopen).trans <| (run_of_step core _ _ 2 (hbits _)).trans <|
    (run_of_step core _ _ 1 (hspeed _)).trans <| (run_of_step core _ _ 0 (hmode _)).trans ?_
  simp [Host.Core.run, State.atCall, State.afterInitOk, busSettings, initCall]

end Sys2Proof.Machine
end

section
/-! The reference chip view under MemWrite (spec/20_memory.md R41), and the schedule of a WRITE against its payload
(spec/42_write_splitter.md R112 laws 1 and 3). -/

namespace Sys2Proof.Machine

/-! ### One MemWrite -/

/-- R41: outside the bytes it places, a MemWrite changes nothing, past the register space included. -/
theorem memByte_write_outside (m : Memory) (a : Addr) (p : Bytes) (x : Nat)
    (h : x < 4 * a.toNat ∨ 4 * a.toNat + p.length ≤ x) : memByte (memWrite m a p) x = memByte m x := by
  rw [memWrite, memByte_put, List.length_take]
  exact if_neg (by simp only [cellBase, cellSize]; omega)

/-- Settles O24: byte `j` stands at byte address `4 a + j`, inside the run MemWrite places; any other is outside it. -/
theorem memWritePlacesEachByte : Obligations.MemWritePlacesEachByte := by
  intro m a p
  refine ⟨fun j hj hcell => ?_, fun x => memByte_write_outside m a p x⟩
  have haddr : cellSize * (a.toNat + j / 4) + j % 4 = cellBase a + j := by simp only [cellSize, cellBase]; omega
  have hinside : cellBase a + j < chipBytes := by simp only [cellBase, cellSize, chipBytes, addressCount]; omega
  rw [cellByte, haddr, memByte_write _ _ _ _ hinside, if_pos ⟨by omega, by omega⟩, Nat.add_sub_cancel_left]
  exact List.getElem?_eq_getElem hj

/-! ### The payload the schedule carries -/

@[simp] theorem framePayload_chunkFrame (a : Addr) (d : Bytes) (k : Nat) :
    framePayload (chunkFrame a d k) = chunkPayload d k := framePayload_compose _ _ _

/-- The payload bytes the first `n` transfers of a WRITE of `d` carry, in order (R110). -/
def sentBytes (d : Bytes) (n : Nat) : Bytes := ((List.range n).map (chunkPayload d)).flatten

theorem sentBytes_succ (d : Bytes) (n : Nat) : sentBytes d (n + 1) = sentBytes d n ++ chunkPayload d n := by
  simp [sentBytes, List.range_succ]

/-- R110, R112 law 1: full chunks carry the payload from its start on, 4000 bytes each. -/
theorem sentBytes_full (d : Bytes) (n : Nat) (hn : n ≤ fullChunks d.length) : sentBytes d n = d.take (4000 * n) := by
  induction n with
  | zero => rfl
  | succ n ih => rw [sentBytes_succ, ih (by omega), chunkPayload_full d n hn, Nat.mul_succ, List.take_add]

/-- R112 law 1: all transfers of the schedule carry the payload. -/
theorem sentBytes_all (d : Bytes) : sentBytes d (fullChunks d.length + 1) = d := by
  rw [sentBytes_succ, sentBytes_full d _ le_rfl, chunkPayload_final d _ (lt_irrefl _), List.take_append_drop]

/-- Settles O21: a frame's payload is its chunk, and the chunks in order are the payload. -/
theorem scheduleCarriesThePayloadOnce : Obligations.ScheduleCarriesThePayloadOnce := by
  intro a d
  have hpayload : framePayload ∘ chunkFrame a d = chunkPayload d := funext (framePayload_chunkFrame a d)
  rw [writeSchedule, List.map_map, hpayload]
  exact sentBytes_all d

/-! ### MemWrites one after the other -/

/-- R112 law 3 for two payloads: where the second starts below the top of the address space, right after the first, they
are one MemWrite. -/
theorem memWrite_memWrite (m : Memory) (a : Addr) (p q : Bytes) (k : Nat) (hp : p.length = 4000 * k)
    (hwrap : a.toNat + 1000 * k ≤ 65535) :
    memWrite (memWrite m a p) (chunkAddr a k) q = memWrite m a (p ++ q) := by
  have hbase : cellBase (chunkAddr a k) = cellBase a + p.length := by
    rw [cellBase, cellBase, chunkAddr_toNat, hp]; simp only [cellSize]; omega
  have hfits : p.length ≤ chipBytes - cellBase a := by
    simp only [cellBase, cellSize, chipBytes, addressCount]; omega
  rw [memWrite, memWrite, memWrite, hbase, List.take_of_length_le hfits, memPut_append, List.take_append,
    List.take_of_length_le hfits, Nat.sub_add_eq]

theorem chipAfter_succ (m : Memory) (a : Addr) (d : Bytes) (n : Nat) :
    chipAfter m a d (n + 1) = memWrite (chipAfter m a d n) (chunkAddr a n) (chunkPayload d n) := by
  simp [chipAfter, List.range_succ]

/-- R112 law 3 for the transfers up to number `n`: their MemWrites are one MemWrite of the bytes they carry. -/
theorem chipAfter_eq_memWrite (m : Memory) (a : Addr) (d : Bytes) (n : Nat) (hn : n ≤ fullChunks d.length)
    (hwrap : a.toNat + 1000 * n ≤ 65535) : chipAfter m a d (n + 1) = memWrite m a (sentBytes d (n + 1)) := by
  induction n with
  | zero => simp [chipAfter, sentBytes]
  | succ n ih =>
    have hlen : (sentBytes d (n + 1)).length = 4000 * (n + 1) := by
      have hlong := (lt_fullChunks_iff d.length n).1 hn
      rw [sentBytes_full d _ hn, List.length_take]
      omega
    rw [chipAfter_succ, ih (by omega) (by omega), memWrite_memWrite _ _ _ _ _ hlen hwrap, ← sentBytes_succ]

/-- Settles O23: the schedule's transfers carry the whole payload. -/
theorem chunkedWritesEqualOneWrite : Obligations.ChunkedWritesEqualOneWrite := by
  intro m a d hwrap
  rw [chipAfter_eq_memWrite m a d _ le_rfl hwrap, sentBytes_all]

end Sys2Proof.Machine
end

section
/-! What a command makes of the reference chip view, whatever the bus does with it (assumption log 7), and what an
outstanding transfer leaves as it is (spec/40_frame_composer.md R84). -/

namespace Sys2Proof.Machine

/-! ### The chip view along a command's phases -/

/-- Context `c` is on its way through the phases of the command that acceptance made context `e` of. -/
structure CarriesOn (p : Params) (e c : Context) : Prop where
  op : c.op = e.op
  reqAddr : c.reqAddr = e.reqAddr
  data : c.data = e.data
  inv : c.Inv p

/-- What one phase of a command's context makes of the live contexts under its ID. -/
theorem PhaseMove.carriesOn {s t : State} {c e : Context} (hmove : PhaseMove s t c)
    (hc : CarriesOn s.params e c) (hs : ∀ d ∈ s.contexts, d.id = e.id → CarriesOn s.params e d) :
    ∀ d ∈ t.contexts, d.id = e.id → CarriesOn s.params e d := by
  intro d hd hde
  rcases hmove.move with ⟨hsame, _⟩ | ⟨c', _, hop, hreq, _, hdata, hinv, _, hput⟩ | ⟨hretired, _⟩
  · exact hs d (hsame ▸ hd) hde
  · rw [hput] at hd
    obtain ⟨d', hd', rfl⟩ := List.mem_map.1 hd
    split
    · exact ⟨hop.trans hc.op, hreq.trans hc.reqAddr, hdata.trans hc.data, hinv⟩
    · next hne => exact hs d' hd' (by rwa [if_neg hne] at hde)
  · rw [hretired] at hd
    exact hs d (List.mem_filter.1 hd).1 hde

/-- Along the run of an accepted command's context, which acceptance made as `e`: the chip view satisfies `Q`. -/
structure RunKeeps (p : Params) (e : Context) (Q : Memory → Prop) (u : State) : Prop where
  params : u.params = p
  own : ∀ c ∈ u.contexts, c.id = e.id → CarriesOn p e c
  chip : Q u.chip

/-- The context acceptance makes is the only one under its ID. -/
theorem accepted_carriesOn (s : State) (i : Instr) :
    ∀ c ∈ (s.addContext (newContext s.newId i)).contexts, c.id = (newContext s.newId i).id →
      CarriesOn s.params (newContext s.newId i) c := by
  intro c hc hid
  rw [newContext_id] at hid
  rw [State.addContext_contexts, List.mem_append, List.mem_singleton] at hc
  rcases hc with hc | rfl
  · exact absurd hid (s.newId_free c hc)
  · exact ⟨rfl, rfl, rfl, newContext_inv _ _ _⟩

/-- What every phase of a command's context keeps of the chip view, the command keeps. -/
theorem exec_chip_induction (i : Instr) (s t : State) (Q : Memory → Prop) (h : exec i s = .next t) (hs : Q s.chip)
    (hphase : ∀ u v c, CarriesOn s.params (newContext s.newId i) c → PhaseMove u v c → Q u.chip → Q v.chip) :
    Q t.chip := by
  rcases exec_cases i s t h with rfl | ⟨_, hrun⟩
  · exact hs
  have hstart : RunKeeps s.params (newContext s.newId i) Q (s.addContext (newContext s.newId i)) :=
    ⟨rfl, accepted_carriesOn s i, hs⟩
  have hend : RunKeeps s.params (newContext s.newId i) Q t := by
    refine runPhases_induction _ _ _ (fun c u v hu hc hcid _ hv => ?_) _ _ t hstart hrun
    have hid : c.id = (newContext s.newId i).id := hcid.trans (newContext_id _ i).symm
    have hcarry := hu.own c hc hid
    have hop : Instr.opOf i = c.op := (hcarry.op.trans (newContext_op _ i)).symm
    rw [hop] at hv
    have hmove := phaseStep_move u v c (hu.params ▸ hcarry.inv) hv
    have hown := hmove.carriesOn (hu.params ▸ hcarry) (hu.params ▸ hu.own)
    obtain ⟨hparams, _⟩ := (phaseStep_frame _ c u v hv).surroundings
    exact ⟨hparams.trans hu.params, hu.params ▸ hown, hphase u v c hcarry hmove hu.chip⟩
  exact hend.chip

/-- Settles O12: no phase of a READ touches the chip view. -/
theorem readLeavesChipViewAlone : Obligations.ReadLeavesChipViewAlone := by
  intro s t a n g h x
  have hchip : t.chip = s.chip := exec_chip_induction _ s t (· = s.chip) h rfl fun u v c hcarry hmove hu =>
    (hmove.chipRead hcarry.op).trans hu
  rw [hchip]

/-- Settles O18: no phase of a WRITE touches the chip view outside the target of its payload. -/
theorem writeChangesOnlyItsTarget : Obligations.WriteChangesOnlyItsTarget := by
  intro s t a d g h x hx hout
  refine exec_chip_induction _ s t (fun m => memByte m x = memByte s.chip x) h rfl fun u v c hcarry hmove hu => ?_
  have htarget := hmove.chipWrite d hcarry.data x hx
  rw [hcarry.reqAddr] at htarget
  exact (htarget hout).trans hu

/-! ### An outstanding transfer -/

/-- R84: the outstanding transfer of a READ, not answered at the poll. -/
theorem readTransfer_unanswered (s : State) (c : Context) (f : Bytes) (rest : List (Option BusOutcome))
    (hp : c.phase = .xferRead) (hf : c.frame = some f) (ha : s.answers = none :: rest) :
    readPhase c s = .next { s with answers := rest } := by
  rw [readTransfer_silent s c f hp hf (s.nextOutcome_cons none rest ha), s.afterOutcome_cons none rest ha]

/-- R24: the phases in which a transfer is outstanding. -/
def outstanding (c : Context) : Prop := c.phase = .xferRead ∨ c.phase = .xferFull ∨ c.phase = .xferFinal

/-- R24, R91: a READ's outstanding transfer is in XFER_READ and has a frame. -/
theorem read_outstanding (p : Params) (c : Context) (hI : c.Inv p) (hop : c.op = .read) (ho : outstanding c) :
    c.phase = .xferRead ∧ ∃ f, c.frame = some f := by
  simp only [Context.Inv, hop] at hI
  obtain ⟨_, _, n, _, hI⟩ := hI
  rcases ho with hp | hp | hp
  · simp only [readPhaseInv, hp] at hI
    exact ⟨hp, _, hI.1⟩
  · simp only [readPhaseInv, hp] at hI
  · simp only [readPhaseInv, hp] at hI

/-- R24, R110: a WRITE's outstanding transfer is number `k` of its schedule, in the phase and with the frame for it. -/
theorem write_outstanding (p : Params) (c : Context) (hI : c.Inv p) (hop : c.op = .write) (ho : outstanding c) :
    ∃ d f k, c.data = some d ∧ c.frame = some f ∧ c.phase = transferPhase d k := by
  simp only [Context.Inv, hop] at hI
  obtain ⟨_, _, d, hd, hI⟩ := hI
  rcases ho with hp | hp | hp
  · simp only [writePhaseInv, hp] at hI
  · simp only [writePhaseInv, hp] at hI
    obtain ⟨k, _, ⟨_, hf⟩, hk, _⟩ := hI
    exact ⟨d, _, k, hd, hf, by rw [hp, transferPhase, if_pos hk]⟩
  · simp only [writePhaseInv, hp] at hI
    obtain ⟨_, ⟨_, hf⟩, _⟩ := hI
    exact ⟨d, _, fullChunks d.length, hd, hf, by rw [hp, transferPhase, if_neg (lt_irrefl _)]⟩

/-- Settles O37: the invariant gives the context the frame its poll reads, and the poll is silent. -/
theorem outstandingTransferIssuesNothing : Obligations.OutstandingTransferIssuesNothing := by
  intro s c rest hI hc ho ha
  have hcI := hI.contexts c hc
  cases hop : c.op with
  | read =>
    obtain ⟨hp, f, hf⟩ := read_outstanding _ c hcI hop ho
    exact readTransfer_unanswered s c f rest hp hf ha
  | write =>
    obtain ⟨d, f, k, hd, hf, hp⟩ := write_outstanding _ c hcI hop ho
    exact writeTransfer_silent s c d f k rest hp hd hf ha

end Sys2Proof.Machine
end

section
/-! The whole of a WRITE (spec/42_write_splitter.md R100 to R115): every transfer answered, one of them failed, and the stride
past the top of the address space. -/

namespace Sys2Proof.Machine

/-! ### Answered transfers, one more at the end -/

theorem answersFit_length (fs rs : List Bytes) (h : answersFit fs rs) : rs.length = fs.length := by
  induction fs generalizing rs with
  | nil =>
    cases rs with
    | nil => rfl
    | cons r rs => cases h
  | cons f fs ih =>
    cases rs with
    | nil => cases h
    | cons r rs =>
      obtain ⟨_, h⟩ := h
      simp [ih rs h]

/-- The last of the answers is the last frame's. -/
theorem answersFit_snoc (fs : List Bytes) (f : Bytes) (resps : List Bytes) (h : answersFit (fs ++ [f]) resps) :
    ∃ rs r, resps = rs ++ [r] ∧ answersFit fs rs ∧ r.length = f.length := by
  induction fs generalizing resps with
  | nil =>
    match resps, h with
    | [r], h => exact ⟨[], r, rfl, trivial, h.1⟩
    | [], h => cases h
    | _ :: _ :: _, h => cases h.2
  | cons g fs ih =>
    match resps, h with
    | r :: resps, ⟨hr, h⟩ =>
      obtain ⟨rs, r', rfl, hfit, hlast⟩ := ih resps h
      exact ⟨r :: rs, r', rfl, ⟨hr, hfit⟩, hlast⟩
    | [], h => cases h

theorem exchangeEvents_snoc (id : Nat) (op : Op) (g : Bool) (f r : Bytes) (xs : List (Bytes × Bytes)) (k : Nat) :
    exchangeEvents id op g k (xs ++ [(f, r)]) =
      exchangeEvents id op g k xs ++ transferEvents id op g (k + xs.length) f (.response r) := by
  induction xs generalizing k with
  | nil => simp [exchangeEvents]
  | cons x xs ih =>
    obtain ⟨f', r'⟩ := x
    simp [exchangeEvents, ih, Nat.add_comm xs.length 1, Nat.add_assoc]

/-- `n` answered transfers before one more make `n + 1`. -/
theorem State.afterChunks_snoc (s : State) (c : Context) (d resp : Bytes) (n : Nat) (resps : List Bytes)
    (r rest : List (Option BusOutcome)) (h : resps.length = n) :
    (s.afterChunks c d 0 n resps r).afterChunks c d n 1 [resp] rest =
      s.afterChunks c d 0 (n + 1) (resps ++ [resp]) rest := by
  have hlen : (((List.range' 0 n).map (chunkFrame c.addr d)).zip resps).length = n := by simp [h]
  have hevents := exchangeEvents_snoc c.id .write c.dbg (chunkFrame c.addr d n) resp
    (((List.range' 0 n).map (chunkFrame c.addr d)).zip resps) 0
  have hzip := List.zip_append (l₁ := (List.range' 0 n).map (chunkFrame c.addr d)) (r₁ := [chunkFrame c.addr d n])
    (l₂ := resps) (r₂ := [resp]) (by simp [h])
  rw [hlen] at hevents
  simp [State.afterChunks, List.range'_concat, hzip, hevents, exchangeEvents]

/-- R110: what the first `n` transfers of a WRITE leave, by the schedule. -/
theorem State.afterChunks_schedule (s : State) (id : Nat) (a : Int) (d : Bytes) (g : Bool) (n : Nat)
    (resps : List Bytes) (rest : List (Option BusOutcome)) (hn : n ≤ fullChunks d.length + 1) :
    s.afterChunks (newContext id (.write a d g)) d 0 n resps rest =
      { s with
        answers := rest
        chip := chipAfter s.chip (BitVec.ofInt 16 a) d n
        history := s.history ++
          exchangeEvents id .write g 0 (((writeSchedule (BitVec.ofInt 16 a) d).take n).zip resps) } := by
  rw [take_writeSchedule _ _ _ hn, chipAfter, List.range_eq_range']
  rfl

/-! ### From acceptance to transfer `k` -/

/-- The operands of a WRITE and the transfers before number `k` raise no error: R131's checks pass, and the stride leads to
`k` (R105). -/
structure ReachesTransfer (s : State) (a : Int) (d : Bytes) (k : Nat) : Prop where
  takes : s.takesCommands
  nonneg : 0 ≤ a
  le : a ≤ 65535
  short : ∀ m, s.params.maxWriteLen = some m → d.length ≤ m
  stride : s.params.addrOverflow = .wrap ∨ a + 1000 * k ≤ 65535
  chunk : k ≤ fullChunks d.length

/-- R100 to R106: CHECK, COMPOSE and `k` answered full chunks bring a WRITE to transfer `k`: `2 + 3 k` phases. -/
theorem exec_write_to_transfer (s : State) (a : Int) (d : Bytes) (g : Bool) (k b : Nat) (resps : List Bytes)
    (rest : List (Option BusOutcome)) (h : ReachesTransfer s a d k) (hburst : s.grant.burst = b + 3 * k + 2)
    (ha : s.answers = (resps.map fun r => some (.response r)) ++ rest)
    (hfit : answersFit ((writeSchedule (BitVec.ofInt 16 a) d).take k) resps) :
    exec (.write a d g) s =
      runPhases writePhase s.newId b ((s.afterChunks (newContext s.newId (.write a d g)) d 0 k resps rest).addContext
        (writeAt (newContext s.newId (.write a d g)) d k)) := by
  have haddr : ((BitVec.ofInt 16 a).toNat : Int) = a :=
    Sys2Proof.ofInt_toNat_of_inRange a (by simp [addressInRange, h.nonneg, h.le])
  have hreach : strideReaches s.params.addrOverflow (BitVec.ofInt 16 a) (0 + k) :=
    h.stride.imp_right fun h => by omega
  have hchunk := h.chunk
  rw [take_writeSchedule _ _ _ (by omega)] at hfit
  have hfirst := write_to_first_chunk s s.newId a d g (b + 3 * k) s.newId_free h.nonneg h.le h.short
  have hchunks := write_chunks_answered (newContext s.newId (.write a d g)) d b rest rfl k 0 s resps
    s.newId_free h.takes.1 (by omega) hreach ha hfit
  rw [Nat.zero_add] at hchunks
  rw [exec_command, s.command_accepted _ _ h.takes, hburst]
  exact hfirst.trans hchunks

/-- Answers to transfers `0 .. k` are answers to the `k` full chunks before it and one to transfer `k`. -/
theorem answersFit_take_succ (a : Addr) (d : Bytes) (k : Nat) (resps : List Bytes) (hk : k ≤ fullChunks d.length)
    (h : answersFit ((writeSchedule a d).take (k + 1)) resps) :
    ∃ rs r, resps = rs ++ [r] ∧ rs.length = k ∧ answersFit ((writeSchedule a d).take k) rs ∧
      r.length = (chunkFrame a d k).length := by
  have htake : (writeSchedule a d).take (k + 1) = (writeSchedule a d).take k ++ [chunkFrame a d k] := by
    rw [take_writeSchedule _ _ _ (by omega), take_writeSchedule _ _ _ (by omega), List.range'_concat]
    simp
  obtain ⟨rs, r, hresps, hfit, hr⟩ := answersFit_snoc _ _ _ (htake ▸ h)
  have hlen := answersFit_length _ _ hfit
  rw [take_writeSchedule _ _ _ (by omega), List.length_map, List.length_range'] at hlen
  exact ⟨rs, r, hresps, hlen, hfit, hr⟩

/-- R110, R112: a WRITE whose transfers `0 .. k` are all answered, when transfer `k`'s answer ends it with the events `es`. -/
theorem exec_write_ended_at (s : State) (a : Int) (d : Bytes) (g : Bool) (k b : Nat) (resps : List Bytes)
    (rest : List (Option BusOutcome)) (es : List Event) (h : ReachesTransfer s a d k)
    (hburst : s.grant.burst = b + 3 * k + 2) (ha : s.answers = (resps.map fun r => some (.response r)) ++ rest)
    (hfit : answersFit ((writeSchedule (BitVec.ofInt 16 a) d).take (k + 1)) resps)
    (hend : ∀ (u : State) (c : Context) (resp : Bytes), c = newContext s.newId (.write a d g) → u.IdFree c.id →
      u.bus = .opened → u.params = s.params → u.answers = some (.response resp) :: rest →
      resp.length = (chunkFrame c.addr d k).length →
      runPhases writePhase c.id b (u.addContext (writeAt c d k)) =
        .next ((u.afterChunks c d k 1 [resp] rest).record es)) :
    exec (.write a d g) s = .next
      { s with
        answers := rest
        chip := chipAfter s.chip (BitVec.ofInt 16 a) d (k + 1)
        history := s.history ++
          exchangeEvents s.newId .write g 0 (((writeSchedule (BitVec.ofInt 16 a) d).take (k + 1)).zip resps) ++ es } := by
  have hk := h.chunk
  obtain ⟨rs, r, rfl, hcount, hbefore, hr⟩ := answersFit_take_succ _ _ _ _ hk hfit
  rw [List.map_append, List.append_assoc] at ha
  have hlast := hend (s.afterChunks (newContext s.newId (.write a d g)) d 0 k rs (some (.response r) :: rest)) _ r rfl
    s.newId_free h.takes.1 rfl rfl hr
  rw [State.afterChunks_snoc _ _ _ _ _ _ _ _ hcount,
    State.afterChunks_schedule s _ a d g (k + 1) _ _ (by omega)] at hlast
  exact (exec_write_to_transfer s a d g k b rs _ h hburst ha hbefore).trans hlast

/-! ### The end of a WRITE -/

/-- R107, R108: the final transfer issued and answered: two phases. -/
theorem write_last_answered (s : State) (c : Context) (d resp : Bytes) (b : Nat) (rest : List (Option BusOutcome))
    (h : s.IdFree c.id) (hb : s.bus = .opened) (hop : c.op = .write) (hd : c.data = some d)
    (ha : s.answers = some (.response resp) :: rest)
    (hr : resp.length = (chunkFrame c.addr d (fullChunks d.length)).length) :
    runPhases writePhase c.id (b + 2) (s.addContext (writeAt c d (fullChunks d.length))) =
      .next ((s.afterChunks c d (fullChunks d.length) 1 [resp] rest).record
        [Event.result (some c.id) (.okWrite d)]) := by
  obtain ⟨hlimit, hchunk⟩ := writeAt_final c.addr d _ (lt_irrefl (fullChunks d.length))
  have hfinal := write_final_answered s (writeAt c d (fullChunks d.length)) d _ resp b rest h hb rfl hop hd rfl hlimit
    ha (by rw [hchunk]; exact hr)
  rw [hchunk] at hfinal
  rw [s.afterChunks_one, State.record_record]
  exact hfinal

/-- Settles O13: the final transfer is number `K`, and its answer ends the WRITE with the echo. -/
theorem writeCompletesAsScheduled : Obligations.WriteCompletesAsScheduled := by
  intro s a d g resps rest htake hburst h0 h1 hlen hover ha hfit
  have hall : (writeSchedule (BitVec.ofInt 16 a) d).take (fullChunks d.length + 1) =
      writeSchedule (BitVec.ofInt 16 a) d := List.take_of_length_le (by simp [writeSchedule])
  have hgrant : s.grant.burst = s.grant.burst - writePhases d.length + 2 + 3 * fullChunks d.length + 2 := by
    unfold writePhases at hburst ⊢
    omega
  rw [← hall] at hfit ⊢
  refine exec_write_ended_at s a d g _ _ resps rest _ ⟨htake, h0, h1, hlen, hover, le_rfl⟩ hgrant ha hfit ?_
  rintro u c resp rfl hfree hb - hu hr
  exact write_last_answered u _ d resp _ rest hfree hb rfl rfl hu hr

/-- Settles O14: a payload of at most 4092 bytes has the one transfer number 0, which is its whole frame. -/
theorem shortWriteIsOneTransfer : Obligations.ShortWriteIsOneTransfer := by
  intro s a d g resp rest htake hburst h0 h1 hshort hlen ha hr
  have hnone := fullChunks_single d.length hshort
  have hpayload : chunkPayload d 0 = d := chunkPayload_final d 0 (by omega)
  have hframe : writeSchedule (BitVec.ofInt 16 a) d = [compose opcWrite (BitVec.ofInt 16 a) d] := by
    simp [writeSchedule, hnone, chunkFrame, hpayload]
  have hdone := writeCompletesAsScheduled s a d g [resp] rest htake (by simpa [writePhases, hnone] using hburst) h0 h1
    hlen (.inr (by simpa [hnone] using h1)) ha (by simpa [hframe, answersFit, Nat.add_comm] using hr)
  simpa [hframe, hnone, chipAfter, hpayload, exchangeEvents] using hdone

/-- R105: a full chunk issued and answered, and the stride past the top of the address space: three phases. -/
theorem write_overflows (s : State) (c : Context) (d resp : Bytes) (k b : Nat) (rest : List (Option BusOutcome))
    (h : s.IdFree c.id) (hb : s.bus = .opened) (hop : c.op = .write) (hk : k < fullChunks d.length)
    (hnext : strideNext s.params.addrOverflow (chunkAddr c.addr k) = none)
    (ha : s.answers = some (.response resp) :: rest) (hr : resp.length = (chunkFrame c.addr d k).length) :
    runPhases writePhase c.id (b + 3) (s.addContext (writeAt c d k)) =
      .next ((s.afterChunks c d k 1 [resp] rest).record
        [Event.result (some c.id) (.err (.addressOverflow c.id (k + 1) (chunkAddr c.addr k)))]) := by
  obtain ⟨hlimit, hchunk⟩ := writeAt_full c.addr d k hk
  have htransfer := write_full_answered s (writeAt c d k) _ resp (b + 1) rest h hb rfl hop rfl hlimit ha
    (by rw [hchunk]; exact hr)
  have hstop := writeAdvance_overflow (s.afterChunks c d k 1 [resp] rest)
    { writeAt c d k with chunk := k + 1, phase := .advance } _ h rfl rfl hnext
  rw [hchunk] at htransfer
  refine htransfer.trans ?_
  rw [s.afterChunks_one] at hstop ⊢
  exact runPhases_last writePhase c.id b _ _ _ rfl h hstop h

/-- Settles O15: full chunk `k` is the last transfer, and the stride after it raises AddressOverflow. -/
theorem writeStopsAtAddressOverflow : Obligations.WriteStopsAtAddressOverflow := by
  intro s a d g k resps rest htake hburst h0 h1 hlen hpolicy hk hreach hpast ha hfit
  have haddr : ((BitVec.ofInt 16 a).toNat : Int) = a :=
    Sys2Proof.ofInt_toNat_of_inRange a (by simp [addressInRange, h0, h1])
  have hnext : strideNext .fault (chunkAddr (BitVec.ofInt 16 a) k) = none :=
    strideNext_overflow _ (by rw [chunkAddr_toNat]; omega)
  have hgrant : s.grant.burst = s.grant.burst - (5 + 3 * k) + 3 + 3 * k + 2 := by omega
  refine exec_write_ended_at s a d g k _ resps rest _ ⟨htake, h0, h1, hlen, .inr hreach, hk.le⟩ hgrant ha hfit ?_
  rintro u c resp rfl hfree hb hparams hu hr
  exact write_overflows u _ d resp k _ rest hfree hb rfl hk (by rw [hparams, hpolicy]; exact hnext) hu hr

/-- R83, R134: transfer `k` of a WRITE, full or final, issued and failed: two phases. -/
theorem write_transfer_failed (s : State) (c : Context) (d : Bytes) (k b : Nat) (o : BusOutcome) (r : Option Nat)
    (rest : List (Option BusOutcome)) (h : s.IdFree c.id) (hb : s.bus = .opened) (hop : c.op = .write)
    (hd : c.data = some d) (ha : s.answers = some o :: rest) (hr : failedWith (chunkFrame c.addr d k).length o r) :
    runPhases writePhase c.id (b + 2) (s.addContext (writeAt c d k)) =
      .next (State.record
        { s with answers := rest, chip := memLose s.chip (chunkAddr c.addr k) (d.length - 4000 * k) }
        (transferEvents c.id .write c.dbg k (chunkFrame c.addr d k) o ++
          [Event.result (some c.id) (.err (.busTransfer c.id k r))])) := by
  have htarget : (framePayload (compose opcWrite (chunkAddr c.addr k) (d.drop (4000 * k)))).length =
      d.length - 4000 * k := by simp
  rw [← htarget]
  by_cases hk : k < fullChunks d.length
  · obtain ⟨hlimit, hchunk⟩ := writeAt_full c.addr d k hk
    rw [← hchunk] at hr ⊢
    exact write_full_failed s (writeAt c d k) _ b o r rest h hb rfl hop rfl hlimit ha hr
  · obtain ⟨hlimit, hchunk⟩ := writeAt_final c.addr d k hk
    rw [← hchunk] at hr ⊢
    exact write_final_failed s (writeAt c d k) d _ b o r rest h hb rfl hop hd rfl hlimit ha hr

/-- Settles O16: `k` full chunks answered, then transfer `k` failed. -/
theorem writeStopsAtAFailedTransfer : Obligations.WriteStopsAtAFailedTransfer := by
  intro s a d g k resps o r rest htake hburst h0 h1 hlen hover hk ha hfit hr
  have hgrant : s.grant.burst = s.grant.burst - (4 + 3 * k) + 2 + 3 * k + 2 := by omega
  have hfail := write_transfer_failed
    (s.afterChunks (newContext s.newId (.write a d g)) d 0 k resps (some o :: rest)) (newContext s.newId (.write a d g))
    d k (s.grant.burst - (4 + 3 * k)) o r rest s.newId_free htake.1 rfl rfl rfl hr
  refine (exec_write_to_transfer s a d g k _ resps _ ⟨htake, h0, h1, hlen, hover, hk⟩ hgrant ha hfit).trans
    (hfail.trans ?_)
  rw [State.afterChunks_schedule _ _ _ _ _ _ _ _ (by omega), State.record, ← List.append_assoc]
  rfl

end Sys2Proof.Machine
end

section
/-! Proofs of the frame statements (spec/30_encoding.md R62 to R70): the header word, the observer's decoding, and the two
directions of the round trip between commands and request frames. -/

namespace Sys2Proof.Machine

/-! ### The header -/

theorem headerWord_compose (opc : Byte) (a : Addr) (p : Bytes) :
    headerWord (compose opc a p) = opc.toNat * 65536 + a.toNat := by
  have hword : headerWord (compose opc a p) = opc.toNat * 65536 + frameAddr (compose opc a p) := Nat.add_assoc _ _ _
  rw [hword, frameAddr_compose]

/-- Settles O2: the address is below 65536, so division takes the word apart again. -/
theorem headerIsOneBigEndianWord : Obligations.HeaderIsOneBigEndianWord := by
  intro opc a p
  have hlt := a.isLt
  have hword := headerWord_compose opc a p
  exact ⟨rfl, rfl, hi8_toNat a, lo8_toNat a, hword, by omega, by omega, frameAddr_compose opc a p, rfl⟩

/-! ### Decoding a frame -/

/-- R69 on a byte string that has a header. -/
theorem viewFrame_header (b0 b1 b2 : Byte) (p : Bytes) :
    viewFrame (b0 :: b1 :: b2 :: p) =
      if b0 = opcWrite then .writeFrame (b1.toNat * 256 + b2.toNat) p
      else if b0 = opcRead then .readFrame (b1.toNat * 256 + b2.toNat) p.length
      else .reservedOpcode b0 :=
  if_neg (by simp)

/-- Settles O3, by the header's opcode byte. -/
theorem frameObservation : Obligations.FrameObservation := by
  intro f
  refine ⟨fun hshort => if_pos hshort, ?_⟩
  rintro b0 b1 b2 p rfl
  rw [viewFrame_header]
  exact ⟨fun hw => if_pos hw, fun hr => by subst hr; rfl, fun hw hr => by rw [if_neg hw, if_neg hr]⟩

theorem decode_compose_write (a : Addr) (p : Bytes) :
    decode (compose opcWrite a p) = .ok (.write a.toNat p false) := by
  simp [decode, viewFrame, frameAddr_compose]

theorem decode_compose_read (a : Addr) (n : Nat) :
    decode (compose opcRead a (zeros n)) = .ok (.read a.toNat n false) := by
  simp [decode, viewFrame, frameAddr_compose]

/-- R69: a READ frame decodes only with a filler of zeros (assumption log 11). -/
theorem decode_compose_read_ok (a : Addr) (p : Bytes) (i : Instr) (h : decode (compose opcRead a p) = .ok i) :
    p = zeros p.length := by
  by_contra hfill
  have hview : viewFrame (compose opcRead a p) = .readFrame (frameAddr (compose opcRead a p)) p.length := rfl
  simp [decode, hview, hfill] at h

/-- R62: a byte string that has a header is a frame of the composer. -/
theorem exists_compose (f : Bytes) (h : 3 ≤ f.length) : ∃ opc a p, f = compose opc a p := by
  match f, h with
  | b0 :: b1 :: b2 :: p, _ =>
    have haddr : (BitVec.ofNat 16 (b1.toNat * 256 + b2.toNat)).toNat = b1.toNat * 256 + b2.toNat :=
      Nat.mod_eq_of_lt (by omega)
    have hhi : hi8 (BitVec.ofNat 16 (b1.toNat * 256 + b2.toNat)) = b1 :=
      BitVec.eq_of_toNat_eq (by rw [hi8_toNat, haddr]; omega)
    have hlo : lo8 (BitVec.ofNat 16 (b1.toNat * 256 + b2.toNat)) = b2 :=
      BitVec.eq_of_toNat_eq (by rw [lo8_toNat, haddr]; omega)
    exact ⟨b0, BitVec.ofNat 16 (b1.toNat * 256 + b2.toNat), p, by rw [compose, hhi, hlo]; rfl⟩

/-- R69, R70: what decodes is a WRITE frame, or a READ frame with a filler of zeros. -/
theorem decode_cases (f : Bytes) (i : Instr) (h : decode f = .ok i) :
    (∃ a p, f = compose opcWrite a p ∧ i = .write a.toNat p false) ∨
      ∃ a n, f = compose opcRead a (zeros n) ∧ i = .read a.toNat n false := by
  by_cases hlen : f.length < 3
  · have hview : viewFrame f = .notAFrame := if_pos hlen
    simp [decode, hview] at h
  obtain ⟨opc, a, p, rfl⟩ := exists_compose f (Nat.le_of_not_lt hlen)
  by_cases hwrite : opc = opcWrite
  · subst hwrite
    rw [decode_compose_write] at h
    exact .inl ⟨a, p, rfl, (Except.ok.inj h).symm⟩
  by_cases hread : opc = opcRead
  · subst hread
    have hfill := decode_compose_read_ok a p i h
    rw [hfill, decode_compose_read] at h
    exact .inr ⟨a, p.length, by rw [← hfill], (Except.ok.inj h).symm⟩
  · have hview : viewFrame (compose opc a p) = .reservedOpcode opc := by
      rw [compose, List.cons_append, List.cons_append, List.cons_append, viewFrame_header, if_neg hwrite, if_neg hread]
    simp [decode, hview] at h

/-! ### The round trip -/

theorem addressInRange_toNat (a : Addr) : addressInRange a.toNat = true := by
  have hlt := a.isLt
  simp only [addressInRange, Bool.and_eq_true, decide_eq_true_eq]
  omega

/-- Settles O4: the header keeps a 16-bit address, and the payload a WRITE's data or a READ's length. -/
theorem decodeOfEncodeIsTheCommand : Obligations.DecodeOfEncodeIsTheCommand := by
  intro i hwf
  cases i with
  | write a d g =>
    rw [encode, decode_compose_write, ofInt_toNat_of_inRange a hwf, Instr.quiet]
  | read a n g =>
    obtain ⟨haddr, hlen⟩ : addressInRange a = true ∧ 0 ≤ n := by simpa [Instr.wf] using hwf
    rw [encode, decode_compose_read, ofInt_toNat_of_inRange a haddr, Int.toNat_of_nonneg hlen, Instr.quiet]

/-- R60: the frame of a well-formed command with DEBUG 0 decodes to that command alone. -/
theorem encode_injective (i j : Instr) (hi : i.wf = true) (hj : j.wf = true) (hdi : i.dbg = false)
    (hdj : j.dbg = false) (h : encode i = encode j) : i = j := by
  have hquiet : ∀ k : Instr, k.dbg = false → k.quiet = k := by
    rintro (⟨a, d, g⟩ | ⟨a, n, g⟩) rfl <;> rfl
  have hdecode : Except.ok i.quiet = Except.ok (ε := DecodeError) j.quiet := by
    rw [← decodeOfEncodeIsTheCommand i hi, h, decodeOfEncodeIsTheCommand j hj]
  rw [← hquiet i hdi, ← hquiet j hdj]
  exact Except.ok.inj hdecode

/-- Settles O5: the decoded command's frame is the one decoded, and no other such command has it. -/
theorem encodeOfDecodeIsTheFrame : Obligations.EncodeOfDecodeIsTheFrame := by
  intro f i h
  have hi : encode i = f ∧ i.wf = true ∧ i.dbg = false := by
    rcases decode_cases f i h with ⟨a, p, rfl, rfl⟩ | ⟨a, n, rfl, rfl⟩
    · exact ⟨by simp [encode], addressInRange_toNat a, rfl⟩
    · exact ⟨by simp [encode], by simp [Instr.wf, addressInRange_toNat], rfl⟩
  obtain ⟨henc, hwf, hdbg⟩ := hi
  exact ⟨henc, hwf, hdbg, fun j hj hdj hej => encode_injective j i hj hwf hdj hdbg (hej.trans henc.symm)⟩

/-- Settles O6, by the frames' addresses and payloads. -/
theorem sampleFramesDecode : Obligations.SampleFramesDecode :=
  ⟨decode_compose_read 0x1234#16 4, decode_compose_read 0x1234#16 2, decode_compose_write 0xFF00#16 [0x01#8], rfl⟩

/-! ### The frames of a schedule -/

/-- R110: the schedule's frame number `k`, by its number. -/
theorem getElem?_writeSchedule (a : Addr) (d : Bytes) (k : Nat) (f : Bytes) (h : (writeSchedule a d)[k]? = some f) :
    f = chunkFrame a d k := by
  obtain ⟨_, rfl⟩ := List.getElem?_eq_some_iff.1 h
  simp [writeSchedule]

/-- R110, R63: the header address of frame `k` is 1000 `k` past the command's, mod 2^16. -/
theorem frameAddr_chunkFrame (a : Addr) (d : Bytes) (k : Nat) :
    frameAddr (chunkFrame a d k) = (a.toNat + 1000 * k) % 65536 := by
  rw [chunkFrame, frameAddr_compose, chunkAddr_toNat]

/-- Settles O22, by the closed form of the header addresses. -/
theorem scheduleAddressesAdvanceByOneStride : Obligations.ScheduleAddressesAdvanceByOneStride := by
  intro a d
  refine ⟨?_, ⟨chunkFrame a d 0, by simp [writeSchedule], ?_⟩, ?_⟩
  · intro f hf
    obtain ⟨k, _, rfl⟩ := List.mem_map.1 hf
    rfl
  · rw [chunkFrame, chunkAddr_zero, frameAddr_compose]
  · intro k f f' hk hk'
    rw [getElem?_writeSchedule a d k f hk, getElem?_writeSchedule a d (k + 1) f' hk', frameAddr_chunkFrame,
      frameAddr_chunkFrame]
    omega

end Sys2Proof.Machine
end

section
/-! Proofs of the port statements (spec/30_encoding.md R60, R163): which commands wait, and which turn runs one. -/

namespace Sys2Proof.Machine

/-- R60: with MAX_CONTEXTS contexts live there is no room. -/
theorem State.hasRoom_full (s : State) (m : Nat) (hm : s.params.maxContexts = some m) (h : m ≤ s.contexts.length) :
    s.hasRoom = false := by
  simp [State.hasRoom, hm, h]

/-- Settles O30: with BUS not OPEN, or without room, the command is not accepted. -/
theorem commandsWaitAtTheClosedOrFullPort : Obligations.CommandsWaitAtTheClosedOrFullPort := by
  intro s i h
  rw [exec_command]
  exact s.command_waits i _ (h.imp_right fun ⟨m, hm, hfull⟩ => s.hasRoom_full m hm hfull)

/-- R60: a turn of the port takes the waiting command it names. -/
theorem State.playAccept_waiting (s : State) (k tag burst : Nat) (i : Instr) (h : s.port[k]? = some i) :
    s.playAccept k tag burst = exec i { s with port := s.port.eraseIdx k, grant := ⟨tag, burst⟩ } := by
  simp only [State.playAccept, h]

/-- Settles O33: with BUS OPEN the turn drawn from the agenda hands the named command to exec. -/
theorem stepTakesAWaitingCommand : Obligations.StepTakesAWaitingCommand := by
  intro s k tag burst i turns hbus hagenda hport
  calc step s
      _ = State.play { s with agenda := turns } (.accept k tag burst) := step_of_agenda s _ turns hagenda
      _ = State.playAccept { s with agenda := turns } k tag burst := State.play_opened _ _ hbus
      _ = exec i { s with agenda := turns, port := s.port.eraseIdx k, grant := ⟨tag, burst⟩ } :=
        State.playAccept_waiting _ k tag burst i hport

/-- Settles O32: the placed command is the first at the port, and the turn placed with it takes that one. -/
theorem stepRunsTheFrameCommand : Obligations.StepRunsTheFrameCommand := by
  intro s f i h
  have hplaced : s.withFrameCommand f = s.withCommand i := by simp only [State.withFrameCommand, h]
  rw [hplaced]
  exact stepTakesAWaitingCommand (s.withCommand i) 0 0 (phasesOf i) i s.agenda rfl rfl rfl

/-- R60, R163: an offer waits at the port in every value of BUS. -/
theorem State.play_offer (s : State) (i : Instr) : s.play (.offer i) = .next (s.waitAtPort i) := by
  unfold State.play
  cases s.bus <;> rfl

/-- Settles O46: the turn drawn from the agenda is an offer. -/
theorem offeredCommandsWait : Obligations.OfferedCommandsWait := by
  intro s i turns hagenda
  rw [step_of_agenda s _ turns hagenda, State.play_offer]
  rfl

end Sys2Proof.Machine
end

section
/-! Proof of the statement about the bus traffic (spec/30_encoding.md R64, R70; spec/42_write_splitter.md R111): every turn
adds only legal frames. -/

namespace Sys2Proof.Machine

/-- Every frame the state's history has on the bus port is one the block may emit. -/
def legalTraffic (s : State) : Prop := ∀ f ∈ issuedFrames s.history, emittable s.params f

/-- Legal traffic is a matter of the parameters and of the frames issued. -/
theorem legalTraffic_congr (s t : State) (h : legalTraffic s) (hp : t.params = s.params)
    (hf : issuedFrames t.history = issuedFrames s.history) : legalTraffic t := by
  unfold legalTraffic
  rw [hp, hf]
  exact h

/-- R162: an initialisation call issues no frame. -/
theorem State.initialise_issues_nothing (s : State) : issuedFrames s.initialise.history = issuedFrames s.history := by
  obtain ⟨_, _, _, _, _, ⟨_, hkept, _⟩ | ⟨_, _, _, hadded⟩⟩ := s.initialise_cases
  · rw [hkept]
  · rw [hadded, issuedFrames_append]
    exact List.append_nil _

/-- A command adds only legal frames: it waits, or its context fits the invariant along its phases. -/
theorem exec_legalTraffic (i : Instr) (s t : State) (hI : s.Inv) (hs : legalTraffic s) (h : exec i s = .next t) :
    legalTraffic t := by
  rcases exec_cases i s t h with rfl | ⟨htake, hrun⟩
  · exact hs
  · obtain ⟨_, _, hlegal⟩ := runPhases_keeps _ _ _ _ t (addContext_inv s i hI htake) (addContext_op s i) hrun
    exact hlegal hs

/-- Settles O42: only the turns of a command or of a live context issue frames, and those are legal. -/
theorem emittedFramesAreLegal : Obligations.EmittedFramesAreLegal := by
  intro s t hI hlegal h
  have hA := s.afterTurn_inv hI
  have hs : legalTraffic s.afterTurn := legalTraffic_congr s _ hlegal (by simp) (by simp)
  rcases step_cases s t h with ⟨_, _, rfl⟩ | ⟨i, _, rfl⟩ | ⟨_, _, rfl⟩ | ⟨_, _, rfl⟩ |
    ⟨k, tag, burst, i, _, _, _, hexec⟩ | ⟨k, burst, c, _, _, hk, hrun⟩
  · intro f hf
    cases hf
  · exact hs
  · obtain ⟨hparams, _⟩ := s.afterTurn.initialise_cases
    exact legalTraffic_congr s.afterTurn _ hs hparams s.afterTurn.initialise_issues_nothing
  · exact hs
  · refine exec_legalTraffic i _ t (s.afterTurn.accepting_inv hA _ _) ?_ hexec
    exact hs
  · have hc : c ∈ s.afterTurn.contexts := by simpa using List.mem_of_getElem? hk
    obtain ⟨_, _, hkeeps⟩ := runPhases_keeps c.op c.id burst _ t hA (hA.op_of_id hc) hrun
    exact hkeeps hs

end Sys2Proof.Machine
end

section
/-! Proof of the statement about results (spec/30_encoding.md R61; spec/60_exceptions.md R132, R133, R137): the phase that
retires a context delivers its one result, and no other phase delivers any. -/

namespace Sys2Proof.Machine

/-! ### Results delivered by the operations of a phase -/

theorem resultsIn_append (g h : List Event) : resultsIn (g ++ h) = resultsIn g ++ resultsIn h := by
  simp [resultsIn]

theorem resultsIn_issue (id : Nat) (op : Op) (g : Bool) (k : Nat) (f : Bytes) :
    resultsIn (issueEvents id op g k f) = [] := by
  cases g <;> rfl

/-- What O36 says of a phase of context `c` from `s` to `t`: it retires the context with one fitting result, or delivers
none. -/
def deliversFitting (s t : State) (c : Context) : Prop :=
  ∃ es, t.history = s.history ++ es ∧
    ((t.phaseOf c.id = .done ∧ ∃ r, resultsIn es = [(some c.id, r)] ∧ resultFits s c r) ∨
      (t.phaseOf c.id ≠ .done ∧ resultsIn es = []))

/-- From `s` to `u` no result is delivered and no live context changes. -/
structure NoResult (s u : State) : Prop where
  contexts : u.contexts = s.contexts
  history : ∃ es, u.history = s.history ++ es ∧ resultsIn es = []

theorem NoResult.refl (s : State) : NoResult s s := ⟨rfl, [], by simp, rfl⟩

theorem NoResult.issue (s : State) (c : Context) (k : Nat) (f : Bytes) :
    NoResult s (s.record (issueEvents c.id c.op c.dbg k f)) :=
  ⟨rfl, _, rfl, resultsIn_issue _ _ _ _ _⟩

theorem NoResult.afterOutcome (s : State) : NoResult s s.afterOutcome := ⟨by simp, [], by simp, rfl⟩

theorem NoResult.landed (s : State) (c : Context) (o : BusOutcome) (f : Bytes) :
    NoResult s ((s.afterOutcome.record [.outcome c.id o]).transferLanded c f) :=
  ⟨by simp, [.outcome c.id o], by simp, rfl⟩

theorem NoResult.lost (s : State) (c : Context) (o : BusOutcome) (f : Bytes) :
    NoResult s ((s.afterOutcome.record [.outcome c.id o]).transferLost c f) :=
  ⟨by simp, [.outcome c.id o], by simp, rfl⟩

theorem deliversFitting_finish (s u : State) (c : Context) (r : Result) (h : NoResult s u) (hr : resultFits s c r) :
    deliversFitting s (u.finish c r) c := by
  obtain ⟨_, es, hes, hnone⟩ := h
  refine ⟨es ++ [.result (some c.id) r], by simp [hes], .inl ⟨u.phaseOf_finish c r, r, ?_, hr⟩⟩
  rw [resultsIn_append, hnone]
  rfl

theorem deliversFitting_put (s u : State) (c d : Context) (hlive : s.findContext c.id = some c) (h : NoResult s u)
    (hid : d.id = c.id) (hd : d.phase ≠ .done) : deliversFitting s (u.putContext d) c := by
  obtain ⟨hctx, es, hes, hnone⟩ := h
  have hfind : u.findContext c.id = some c := by rw [State.findContext, hctx]; exact hlive
  exact ⟨es, hes, .inr ⟨by rwa [u.phaseOf_put c d hid ⟨c, hfind⟩], hnone⟩⟩

theorem deliversFitting_kept (s u : State) (c : Context) (hlive : s.findContext c.id = some c) (h : NoResult s u)
    (hc : c.phase ≠ .done) : deliversFitting s u c := by
  obtain ⟨hctx, es, hes, hnone⟩ := h
  refine ⟨es, hes, .inr ⟨?_, hnone⟩⟩
  rw [State.phaseOf_congr s u c.id hctx, State.phaseOf, hlive]
  exact hc

/-- R83: a poll delivers nothing while it is silent, and the error for a failed transfer; what follows an answer is `k`'s. -/
theorem deliversFitting_poll (s : State) (c : Context) (cur wire : Bytes) (k : Bytes → State → State)
    (hlive : s.findContext c.id = some c) (hc : c.phase ≠ .done)
    (hfail : ∀ r, s.pollFailed wire.length r → resultFits s c (.err (.busTransfer c.id (c.chunk - 1) r)))
    (hanswer : ∀ resp u, s.pollAnswered wire.length resp → NoResult s u → deliversFitting s (k resp u) c) :
    deliversFitting s (s.pollTransfer c cur wire k) c := by
  rcases s.pollTransfer_cases c cur wire k with ⟨_, h⟩ | ⟨o, r, ho, hr, h⟩ | ⟨resp, ho, hlen, h⟩
  · rw [h]
    exact deliversFitting_kept s _ c hlive (NoResult.afterOutcome s) hc
  · rw [h]
    exact deliversFitting_finish s _ c _ (NoResult.lost s c o cur) (hfail r ⟨o, ho, hr⟩)
  · rw [h]
    exact hanswer resp _ ⟨ho, hlen⟩ (NoResult.landed s c _ wire)

/-! ### The results of a READ -/

theorem addressValid_false (a : Int) (h : addressValid a = false) : a < 0 ∨ 65535 < a := by
  by_contra hc
  have hvalid : addressValid a = true := by simp [addressValid]; omega
  rw [hvalid] at h
  cases h

theorem resultFits_read (s : State) (c : Context) (n : Int) (r : Result) (hop : c.op = .read) (hn : c.len = some n)
    (h : readResultFits s c n r) : resultFits s c r := by
  simp only [resultFits, hop]
  exact ⟨n, hn, h⟩

/-- R131, R133: a READ's input error names the address or the length that is out of range. -/
theorem readInputError_fits (s : State) (c : Context) (n : Int) (e : OpError) (hp : c.phase = .check)
    (h : readInputError c.id c.reqAddr n = some e) : readResultFits s c n (.err e) := by
  unfold readInputError at h
  split at h
  · next ha =>
    cases h
    exact ⟨hp, rfl, rfl, addressValid_false _ (by simpa using ha)⟩
  · split at h
    · next hn =>
      cases h
      exact ⟨hp, rfl, rfl, hn⟩
    · cases h

/-- R93: a READ too long reaches the limit under the policy `fault`. -/
theorem readTooLong_true (p : OversizePolicy) (n : Int) (h : readTooLong p n = true) : 4093 ≤ n ∧ p = .fault := by
  cases p with
  | pass => cases h
  | fault =>
    have hlimit : (4096 : Int) ≤ 3 + n := by simpa [readTooLong] using h
    exact ⟨by omega, rfl⟩

/-- A phase of a READ that fits the invariant ends in its one result or delivers none. -/
theorem readPhase_delivers (s t : State) (c : Context) (hop : c.op = .read) (hI : c.Inv s.params)
    (hlive : s.findContext c.id = some c) (h : readPhase c s = .next t) : deliversFitting s t c := by
  rcases readPhase_cases c s t h with ⟨n, e, hp, hn, hv, rfl⟩ | ⟨n, _, _, _, rfl⟩ | ⟨n, hp, hn, hv, rfl⟩ |
    ⟨n, _, _, _, _, rfl⟩ | ⟨f, hp, hf, rfl⟩
  · exact deliversFitting_finish s s c _ (NoResult.refl s)
      (resultFits_read s c n _ hop hn (readInputError_fits s c n e hp hv))
  · exact deliversFitting_put s s c { c with phase := .compose } hlive (NoResult.refl s) rfl (by simp)
  · obtain ⟨hlong, hpolicy⟩ := readTooLong_true _ n hv
    exact deliversFitting_finish s s c _ (NoResult.refl s)
      (resultFits_read s c n _ hop hn ⟨hp, rfl, rfl, hlong, hpolicy⟩)
  · exact deliversFitting_put s _ c (readIssued c n) hlive (NoResult.issue s c _ _) rfl (by simp [readIssued])
  · simp only [Context.Inv, hop] at hI
    obtain ⟨_, _, n, hn, hI⟩ := hI
    simp only [readPhaseInv, hp] at hI
    obtain ⟨hframe, hchunk, _, hpos, _⟩ := hI
    have hlen : f.length = headerLen + n.toNat := by
      rw [hframe] at hf
      cases hf
      simp [Nat.add_comm]
    refine deliversFitting_poll s c f f _ hlive (by simp [hp]) (fun r hr => ?_) fun resp u hresp hu => ?_
    · rw [hlen] at hr
      exact resultFits_read s c n _ hop hn ⟨hp, rfl, by rw [hchunk], hchunk, hr⟩
    · rw [hlen] at hresp
      have hdata : ((resp.drop headerLen).length : Int) = n := by
        rw [List.length_drop, hresp.2]
        omega
      exact deliversFitting_finish s u c _ hu (resultFits_read s c n _ hop hn ⟨hp, hdata, resp, hresp, rfl⟩)

/-! ### The results of a WRITE -/

theorem resultFits_write (s : State) (c : Context) (d : Bytes) (r : Result) (hop : c.op = .write)
    (hd : c.data = some d) (h : writeResultFits s c d r) : resultFits s c r := by
  simp only [resultFits, hop]
  exact ⟨d, hd, h⟩

/-- R131: a payload too long is longer than a bounded MAX_WRITE_LEN. -/
theorem writeTooLong_true (bound : Option Nat) (len : Nat) (h : writeTooLong bound len = true) :
    ∃ m, bound = some m ∧ m < len := by
  cases bound with
  | none => cases h
  | some m => exact ⟨m, rfl, by simpa [writeTooLong] using h⟩

/-- R131, R133: a WRITE's input error names the address or the length that is out of range. -/
theorem writeInputError_fits (s : State) (c : Context) (d : Bytes) (e : OpError) (hp : c.phase = .check)
    (h : writeInputError s.params c.id c.reqAddr d = some e) : writeResultFits s c d (.err e) := by
  unfold writeInputError at h
  split at h
  · next ha =>
    cases h
    exact ⟨hp, rfl, rfl, addressValid_false _ (by simpa using ha)⟩
  · split at h
    · next hlong =>
      cases h
      exact ⟨hp, rfl, rfl, writeTooLong_true _ _ hlong⟩
    · cases h

/-- R105: the stride stops only past the top of the address space, under the policy `fault`. -/
theorem strideNext_none (p : OverflowPolicy) (a : Addr) (h : strideNext p a = none) :
    65535 < a.toNat + 1000 ∧ p = .fault := by
  by_cases hlow : a.toNat + 1000 ≤ 65535
  · rw [strideNext_below p a hlow] at h
    cases h
  · cases p with
    | wrap => rw [strideNext_wrap] at h; cases h
    | fault => exact ⟨by omega, rfl⟩

/-- R83, R133: the error of a WRITE's failed transfer number `k`, full or final. -/
theorem writeFailure_fits (s : State) (c : Context) (d wire : Bytes) (k : Nat) (r : Option Nat)
    (hp : (c.phase = .xferFull ∧ k < fullChunks d.length) ∨ (c.phase = .xferFinal ∧ k = fullChunks d.length))
    (hchunk : c.chunk = k + 1) (hwire : wire = chunkFrame (BitVec.ofInt addrWidth c.reqAddr) d k)
    (h : s.pollFailed wire.length r) : writeResultFits s c d (.err (.busTransfer c.id (c.chunk - 1) r)) := by
  subst hwire
  rw [hchunk]
  exact ⟨hp, rfl, hchunk.symm, h⟩

/-- R110: the frame of a context at full chunk `k` and what of it is sent. -/
theorem atChunk_full (c : Context) (d f : Bytes) (k : Nat) (h : atChunk c d k) (hf : c.frame = some f)
    (hk : k < fullChunks d.length) : fullChunk f = chunkFrame (BitVec.ofInt addrWidth c.reqAddr) d k := by
  obtain ⟨haddr, hframe⟩ := h
  rw [hframe, haddr] at hf
  cases hf
  exact (writeAt_full _ d k hk).2

theorem atChunk_final (c : Context) (d f : Bytes) (k : Nat) (h : atChunk c d k) (hf : c.frame = some f)
    (hk : ¬k < fullChunks d.length) : f = chunkFrame (BitVec.ofInt addrWidth c.reqAddr) d k := by
  obtain ⟨haddr, hframe⟩ := h
  rw [hframe, haddr] at hf
  cases hf
  exact (writeAt_final _ d k hk).2

/-- A phase of a WRITE that fits the invariant ends in its one result or delivers none. -/
theorem writePhase_delivers (s t : State) (c : Context) (hop : c.op = .write) (hI : c.Inv s.params)
    (hlive : s.findContext c.id = some c) (h : writePhase c s = .next t) : deliversFitting s t c := by
  simp only [Context.Inv, hop] at hI
  obtain ⟨_, _, d, hd, hI⟩ := hI
  have hfits : ∀ r, writeResultFits s c d r → resultFits s c r := fun r => resultFits_write s c d r hop hd
  rcases writePhase_cases c s t h with ⟨d', e, hp, hd', hv, rfl⟩ | ⟨_, _, _, _, rfl⟩ | ⟨d', _, _, rfl⟩ |
    ⟨f, _, _, _, _, rfl⟩ | ⟨f, _, _, _, _, rfl⟩ | ⟨f, hp, hf, rfl⟩ | ⟨f, hp, hf, hn, rfl⟩ |
    ⟨f, a, _, _, _, rfl⟩ | ⟨d', f, hp, hd', hf, rfl⟩
  · obtain rfl : d = d' := Option.some.inj (hd.symm.trans hd')
    exact deliversFitting_finish s s c _ (NoResult.refl s) (hfits _ (writeInputError_fits s c d e hp hv))
  · exact deliversFitting_put s s c { c with phase := .compose } hlive (NoResult.refl s) rfl (by simp)
  · exact deliversFitting_put s s c { c with frame := some (compose opcWrite c.addr d'), phase := .decide } hlive
      (NoResult.refl s) rfl (by simp)
  · exact deliversFitting_put s _ c (writeIssued c .xferFinal) hlive (NoResult.issue s c _ _) rfl (by simp [writeIssued])
  · exact deliversFitting_put s _ c (writeIssued c .xferFull) hlive (NoResult.issue s c _ _) rfl (by simp [writeIssued])
  · simp only [writePhaseInv, hp] at hI
    obtain ⟨k, hchunk, hat, hk, _⟩ := hI
    refine deliversFitting_poll s c f _ _ hlive (by simp [hp]) (fun r hr => hfits _ ?_) fun _ u _ hu => ?_
    · exact writeFailure_fits s c d _ k r (.inl ⟨hp, hk⟩) hchunk (atChunk_full c d f k hat hf hk) hr
    · exact deliversFitting_put s u c { c with phase := .advance } hlive hu rfl (by simp)
  · simp only [writePhaseInv, hp] at hI
    obtain ⟨k, hchunk, ⟨haddr, _⟩, hk, _⟩ := hI
    obtain ⟨hover, hpolicy⟩ := strideNext_none _ _ hn
    have hlast : c.addr = chunkAddr (BitVec.ofInt addrWidth c.reqAddr) (c.chunk - 1) := by rw [hchunk]; exact haddr
    exact deliversFitting_finish s s c _ (NoResult.refl s)
      (hfits _ ⟨hp, rfl, rfl, by omega, by omega, hlast, hover, hpolicy⟩)
  · exact deliversFitting_put s s c
      { c with addr := a, frame := some (compose opcWrite a (remainder f)), phase := .decide } hlive (NoResult.refl s)
      rfl (by simp)
  · obtain rfl : d = d' := Option.some.inj (hd.symm.trans hd')
    simp only [writePhaseInv, hp] at hI
    obtain ⟨hchunk, hat, _⟩ := hI
    have hwire := atChunk_final c d f _ hat hf (lt_irrefl _)
    refine deliversFitting_poll s c f f _ hlive (by simp [hp]) (fun r hr => hfits _ ?_) fun resp u hresp hu => ?_
    · exact writeFailure_fits s c d f _ r (.inr ⟨hp, rfl⟩) hchunk hwire hr
    · rw [hwire] at hresp
      exact deliversFitting_finish s u c _ hu (hfits _ ⟨hp, rfl, resp, hresp⟩)

/-- Settles O36, by the phases of the context's operation. -/
theorem eachContextEndsInOneFittingResult : Obligations.EachContextEndsInOneFittingResult := by
  intro s t c hI hc h
  have hlive := s.findContext_mem c hI.ids hc
  have hcI := hI.contexts c hc
  cases hop : c.op with
  | read => exact readPhase_delivers s t c hop hcI hlive (by rwa [hop] at h)
  | write => exact writePhase_delivers s t c hop hcI hlive (by rwa [hop] at h)

end Sys2Proof.Machine
end

section
/-! Proofs of the frame composer's statements (spec/40_frame_composer.md R81, R83): the four composer laws, and the READ
whose one transfer fails (spec/60_exceptions.md R133, R134). -/

namespace Sys2Proof.Machine

/-- R81: a frame fixes the opcode, the address and the payload it was composed of. -/
theorem compose_injective (opc opc' : Byte) (a a' : Addr) (p p' : Bytes) (h : compose opc a p = compose opc' a' p') :
    opc = opc' ∧ a = a' ∧ p = p' := by
  have hopc := congrArg frameOpcode h
  have haddr := congrArg frameAddr h
  have hpayload := congrArg framePayload h
  rw [frameAddr_compose, frameAddr_compose] at haddr
  exact ⟨hopc, BitVec.eq_of_toNat_eq haddr, hpayload⟩

/-- Settles O1: the fields an observer reads back tell two frames apart. -/
theorem composerLaws : Obligations.ComposerLaws := by
  intro opc opc' a a' p p'
  exact ⟨(length_compose opc a p).trans (Nat.add_comm _ _), rfl, rfl, compose_injective opc opc' a a' p p'⟩

/-- Settles O10: two phases issue the transfer, and the third finds it failed. -/
theorem readReportsAFailedTransfer : Obligations.ReadReportsAFailedTransfer := by
  intro s a n g o r rest htake hburst h0 h1 hn hlen ha hfail
  obtain ⟨b, hb⟩ := Nat.exists_eq_add_of_le' hburst
  have hissue := read_to_issue s (newContext s.newId (.read a n g)) n (b + 1) s.newId_free htake.1 rfl rfl
    (readInputError_none _ a n h0 h1 hn) (readTooLong_false _ n hlen)
  have hfailed := read_failed (s.record (issueEvents s.newId .read g 0 (encode (.read a n g))))
    (newContext s.newId (.read a n g)) n b o r rest s.newId_free rfl ha (by rwa [Nat.add_comm] at hfail)
  rw [exec_command, s.command_accepted _ _ htake, hb]
  refine (hissue.trans hfailed).trans (congrArg Host.Outcome.next ?_)
  simp [State.record, transferEvents, newContext]

end Sys2Proof.Machine
end

section
/-! Proofs of the READ's statements (spec/41_read.md): the READ whose one transfer is answered, and the READ too long to be
sent (R93). -/

namespace Sys2Proof.Machine

/-- R90, R91: an accepted READ with valid operands comes to its outstanding transfer after two phases of its grant. -/
theorem exec_read_to_issue (s : State) (a n : Int) (g : Bool) (b : Nat) (htake : s.takesCommands)
    (hb : s.grant.burst = b + 2) (h0 : 0 ≤ a) (h1 : a ≤ 65535) (hn : 0 ≤ n)
    (hlen : n ≤ 4092 ∨ s.params.readOversize = .pass) :
    exec (.read a n g) s = runPhases readPhase s.newId b
      ((s.record (issueEvents s.newId .read g 0 (encode (.read a n g)))).addContext
        (readIssued (newContext s.newId (.read a n g)) n)) := by
  rw [exec_command, s.command_accepted _ _ htake, hb]
  exact read_to_issue s (newContext s.newId (.read a n g)) n b s.newId_free htake.1 rfl rfl
    (readInputError_none _ a n h0 h1 hn) (readTooLong_false _ n hlen)

/-- Settles O7: two phases issue the transfer, and the third finds its answer. -/
theorem readCompletes : Obligations.ReadCompletes := by
  intro s a n g resp rest htake hburst h0 h1 hn hlen ha hresp
  obtain ⟨b, hb⟩ := Nat.exists_eq_add_of_le' hburst
  have hanswered := read_answered (s.record (issueEvents s.newId .read g 0 (encode (.read a n g))))
    (newContext s.newId (.read a n g)) n b resp rest s.newId_free rfl ha (by omega)
  refine ((exec_read_to_issue s a n g (b + 1) htake hb h0 h1 hn hlen).trans hanswered).trans
    (congrArg Host.Outcome.next ?_)
  simp [State.record, transferEvents, newContext, encode, zeros]

/-- R93: under the policy `fault` a READ whose frame reaches the limit is too long. -/
theorem readTooLong_fault (n : Int) (h : 4093 ≤ n) : readTooLong .fault n = true := by
  simp only [readTooLong, transactionLimit, headerLen, decide_eq_true_eq]
  omega

/-- R93: a READ with valid inputs that is too long passes CHECK and ends in COMPOSE. -/
theorem read_oversize (s : State) (c : Context) (n : Int) (b : Nat) (h : s.IdFree c.id) (hp : c.phase = .check)
    (hn : c.len = some n) (hv : readInputError c.id c.reqAddr n = none)
    (hl : readTooLong s.params.readOversize n = true) :
    runPhases readPhase c.id (b + 2) (s.addContext c) =
      .next (s.record [.result (some c.id) (.err (.oversizeRead c.id n))]) := by
  rw [runPhases_add readPhase c.id (b + 1) s _ c rfl h (readCheck_ok s c n h hp hn hv)]
  exact runPhases_last readPhase c.id b s _ { c with phase := .compose } rfl h
    (readCompose_oversize s { c with phase := .compose } n h rfl hn hl) h

/-- Settles O8: CHECK finds the operands valid, and COMPOSE the frame too long before any transfer is issued. -/
theorem oversizeReadIssuesNothing : Obligations.OversizeReadIssuesNothing := by
  intro s a n g htake hburst h0 h1 hn hpolicy
  obtain ⟨b, hb⟩ := Nat.exists_eq_add_of_le' hburst
  rw [exec_command, s.command_accepted _ _ htake, hb]
  exact read_oversize s (newContext s.newId (.read a n g)) n b s.newId_free rfl rfl
    (readInputError_none _ a n h0 h1 (by omega)) (by rw [hpolicy]; exact readTooLong_fault n hn)

end Sys2Proof.Machine
end

section
/-! The address-stride multiplexer (spec/42_write_splitter.md R105) and the bounds of the transfer schedule (R111). -/

namespace Sys2Proof.Machine

/-! ### The stride -/

theorem addr_add_stride_toNat (a : Addr) : (a + 1000#16).toNat = (a.toNat + 1000) % 65536 := BitVec.toNat_add a 1000#16

/-- Settles O19: where there is a next address it is the stride's sum, mod 2^16. -/
theorem strideAdvancesOrOverflows : Obligations.StrideAdvancesOrOverflows := by
  intro a
  refine ⟨fun p hlow => ?_, strideNext_overflow a, fun hhigh => ?_⟩
  · rw [strideNext_below p a hlow, Option.map_some, addr_add_stride_toNat, Nat.mod_eq_of_lt (by omega)]
  · rw [strideNext_wrap, Option.map_some, addr_add_stride_toNat]
    exact congrArg some (by omega)

/-! ### The lengths of the transfers -/

/-- R111: after the full chunks at most 4092 bytes are left. -/
theorem final_payload_le (len : Nat) : len - 4000 * fullChunks len ≤ 4092 := by
  have hstop := mt (lt_fullChunks_iff len (fullChunks len)).2 (lt_irrefl _)
  omega

/-- R111: after at least one full chunk at least 93 bytes are left, for the last full chunk was not yet the rest. -/
theorem final_payload_ge (len : Nat) (h : 1 ≤ fullChunks len) : 93 ≤ len - 4000 * fullChunks len := by
  have hlast := (lt_fullChunks_iff len (fullChunks len - 1)).1 (by omega)
  omega

/-- R104, R111: a full chunk's frame is 4003 bytes long. -/
theorem length_chunkFrame_full (a : Addr) (d : Bytes) (k : Nat) (hk : k < fullChunks d.length) :
    (chunkFrame a d k).length = 4003 := by
  have hlong := (lt_fullChunks_iff d.length k).1 hk
  rw [chunkFrame, length_compose, chunkPayload_full d k hk, List.length_take, List.length_drop]
  omega

/-- R106, R111: the final frame is its header and the payload that is left. -/
theorem length_chunkFrame_final (a : Addr) (d : Bytes) :
    (chunkFrame a d (fullChunks d.length)).length = 3 + (d.length - 4000 * fullChunks d.length) := by
  rw [chunkFrame, length_compose, chunkPayload_final d _ (lt_irrefl _), List.length_drop, Nat.add_comm]

/-- R111: no frame of the schedule reaches the limit. -/
theorem length_lt_of_mem_writeSchedule (a : Addr) (d f : Bytes) (hf : f ∈ writeSchedule a d) : f.length < 4096 := by
  obtain ⟨k, hk, rfl⟩ := List.mem_map.1 hf
  obtain hfull | rfl := Nat.lt_succ_iff_lt_or_eq.1 (List.mem_range.1 hk)
  · rw [length_chunkFrame_full a d k hfull]
    decide
  · have hleft := final_payload_le d.length
    rw [length_chunkFrame_final]
    omega

/-- R110 with `K = 0`: the schedule is the one frame with the whole payload. -/
theorem writeSchedule_single (a : Addr) (d : Bytes) (h : fullChunks d.length = 0) :
    writeSchedule a d = [compose opcWrite a d] := by
  have hframe : chunkFrame a d 0 = compose opcWrite a d := by
    rw [chunkFrame, chunkAddr_zero, chunkPayload_final d 0 (by omega), Nat.mul_zero, List.drop_zero]
  rw [writeSchedule, h, ← hframe]
  rfl

/-- Settles O20: the full and the final frames' lengths, and the sum by R112 law 1. -/
theorem scheduleBounds : Obligations.ScheduleBounds := by
  intro a d
  refine ⟨length_chunkFrame_full a d, length_lt_of_mem_writeSchedule a d, fun hK => ?_, fun hK => ?_, ?_⟩
  · exact ⟨final_payload_ge _ hK, final_payload_le _, length_chunkFrame_final a d⟩
  · exact ⟨writeSchedule_single a d hK, by simpa only [hK, Nat.mul_zero, Nat.sub_zero] using final_payload_le d.length⟩
  · have hlength := congrArg List.length (scheduleCarriesThePayloadOnce a d)
    rwa [List.length_flatten, List.map_map] at hlength

end Sys2Proof.Machine
end

section
/-! The input checks (spec/60_exceptions.md R131, R138): CHECK names the address before the length, and an input error
ends the operation before any transfer. -/

namespace Sys2Proof.Machine

/-! ### The errors CHECK raises -/

theorem addressValid_eq_false (a : Int) (h : a < 0 ∨ 65535 < a) : addressValid a = false := by
  simp only [addressValid, Bool.and_eq_false_iff, decide_eq_false_iff_not]
  omega

theorem addressValid_eq_true (a : Int) (h0 : 0 ≤ a) (h1 : a ≤ 65535) : addressValid a = true := by
  simp [addressValid, h0, h1]

/-- R138: a READ's address is checked first, whatever its length. -/
theorem readInputError_address (id : Nat) (a n : Int) (h : a < 0 ∨ 65535 < a) :
    readInputError id a n = some (.invalidAddress id a) := by
  simp [readInputError, addressValid_eq_false a h]

theorem readInputError_length (id : Nat) (a n : Int) (h0 : 0 ≤ a) (h1 : a ≤ 65535) (hn : n < 0) :
    readInputError id a n = some (.invalidLength id n) := by
  simp [readInputError, addressValid_eq_true a h0 h1, hn]

/-- R138: a WRITE's address is checked first, whatever its length. -/
theorem writeInputError_address (p : Params) (id : Nat) (a : Int) (d : Bytes) (h : a < 0 ∨ 65535 < a) :
    writeInputError p id a d = some (.invalidAddress id a) := by
  simp [writeInputError, addressValid_eq_false a h]

theorem writeInputError_length (p : Params) (id m : Nat) (a : Int) (d : Bytes) (h0 : 0 ≤ a) (h1 : a ≤ 65535)
    (hm : p.maxWriteLen = some m) (hd : m < d.length) :
    writeInputError p id a d = some (.invalidLength id d.length) := by
  simp [writeInputError, writeTooLong, addressValid_eq_true a h0 h1, hm, hd]

/-! ### Commands that end in CHECK -/

/-- R12, R60: an accepted command whose first phase raises an error ends there, whatever else its turn grants it. -/
theorem exec_first_phase_error (s : State) (i : Instr) (e : OpError) (htake : s.takesCommands)
    (hburst : 1 ≤ s.grant.burst)
    (hphase : phaseStep (Instr.opOf i) (newContext s.newId i) (s.addContext (newContext s.newId i)) =
      .next (s.record [.result (some s.newId) (.err e)])) :
    exec i s = .next (s.record [.result (some s.newId) (.err e)]) := by
  obtain ⟨b, hb⟩ := Nat.exists_eq_add_of_le' hburst
  have hid := newContext_id s.newId i
  rw [exec_command, s.command_accepted _ _ htake, hb]
  exact runPhases_last _ s.newId b s _ _ hid (by rw [hid]; exact s.newId_free) hphase s.newId_free

/-- R131: a READ with an input error delivers it and issues no transfer. -/
theorem exec_read_input_error (s : State) (a n : Int) (g : Bool) (e : OpError) (htake : s.takesCommands)
    (hburst : 1 ≤ s.grant.burst) (he : readInputError s.newId a n = some e) :
    exec (.read a n g) s = .next (s.record [.result (some s.newId) (.err e)]) :=
  exec_first_phase_error s (.read a n g) e htake hburst
    (readCheck_error s (newContext s.newId (.read a n g)) n e s.newId_free rfl rfl he)

/-- R131: a WRITE with an input error delivers it and issues no transfer. -/
theorem exec_write_input_error (s : State) (a : Int) (d : Bytes) (g : Bool) (e : OpError) (htake : s.takesCommands)
    (hburst : 1 ≤ s.grant.burst) (he : writeInputError s.params s.newId a d = some e) :
    exec (.write a d g) s = .next (s.record [.result (some s.newId) (.err e)]) :=
  exec_first_phase_error s (.write a d g) e htake hburst
    (writeCheck_error s (newContext s.newId (.write a d g)) d e s.newId_free rfl rfl he)

/-- Settles O9: the address out of range is found first, and a negative length with a valid address. -/
theorem readChecksItsInputs : Obligations.ReadChecksItsInputs := by
  intro s a n g htake hburst
  exact ⟨fun ha => exec_read_input_error s a n g _ htake hburst (readInputError_address _ a n ha),
    fun h0 h1 hn => exec_read_input_error s a n g _ htake hburst (readInputError_length _ a n h0 h1 hn)⟩

/-- Settles O17: the address out of range is found first, and a payload over the bound with a valid address. -/
theorem writeChecksItsInputs : Obligations.WriteChecksItsInputs := by
  intro s a d g htake hburst
  exact ⟨fun ha => exec_write_input_error s a d g _ htake hburst (writeInputError_address _ _ a d ha),
    fun m h0 h1 hm hd => exec_write_input_error s a d g _ htake hburst (writeInputError_length _ _ m a d h0 h1 hm hd)⟩

end Sys2Proof.Machine
end

section
/-! Independence of contexts (spec/60_exceptions.md R139, R152), and the failed initialisation (spec/60_exceptions.md R136,
spec/70_reset_and_hazards.md R162). -/

namespace Sys2Proof.Machine

/-! ### A context's move and the other contexts -/

/-- R139: a context of another ID is neither rewritten nor retired by a move. -/
theorem contextsMove_keeps_others (id : Nat) (cs ds : List Context) (h : contextsMove id cs ds) (e : Context)
    (he : e ∈ cs) (hid : e.id ≠ id) : e ∈ ds := by
  rcases h with rfl | ⟨c, _, rfl⟩ | rfl
  · exact he
  · exact List.mem_map.2 ⟨e, he, if_neg hid⟩
  · exact List.mem_filter.2 ⟨he, by simpa using hid⟩

/-- Settles O38: the turn is a run of the named context's phases, each of which moves that context alone. -/
theorem aContextsTurnLeavesTheOthersAlone : Obligations.AContextsTurnLeavesTheOthersAlone := by
  intro s t k burst c turns hbus hagenda hlive h
  rw [stepRunsALiveContext s k burst c turns hbus hagenda hlive] at h
  have hframe := run_frame c burst _ t h
  obtain ⟨hparams, hbus', hcfg, _⟩ := hframe.surroundings
  exact ⟨contextsMove_keeps_others c.id _ _ hframe.contexts, hbus', hcfg, hframe.port, hparams⟩

/-! ### The block's own turns while BUS is not OPEN -/

/-- The block's own turns are those that take a command and those that run a context. -/
theorem blockTurn_cases (t : Turn) (h : blockTurn t = true) :
    (∃ slot tag burst, t = .accept slot tag burst) ∨ ∃ slot burst, t = .run slot burst := by
  cases t with
  | offer i => cases h
  | accept slot tag burst => exact .inl ⟨slot, tag, burst, rfl⟩
  | run slot burst => exact .inr ⟨slot, burst, rfl⟩
  | reset => cases h

/-- R161: with BUS CLOSED the block's own turns make the next initialisation call. -/
theorem State.play_closed_blockTurn (s : State) (t : Turn) (hb : s.bus = .closed) (ht : blockTurn t = true) :
    s.play t = .next s.initialise := by
  obtain ⟨slot, tag, burst, rfl⟩ | ⟨slot, burst, rfl⟩ := blockTurn_cases t ht <;>
    simp only [State.play, hb, State.playClosed]

/-- R136: with BUS INIT_FAILED the block's own turns are the fault. -/
theorem State.play_failed_blockTurn (s : State) (t : Turn) (hb : s.bus = .initFailed) (ht : blockTurn t = true) :
    s.play t = .fault .busInitFailed := by
  obtain ⟨slot, tag, burst, rfl⟩ | ⟨slot, burst, rfl⟩ := blockTurn_cases t ht <;>
    simp only [State.play, hb, State.playFailed]

/-- R136, R162: a call that fails ends the sequence at whichever place it stands. -/
theorem State.initialise_failure (s : State) (oks : List Bool) (h : s.setterAnswers = false :: oks) :
    s.initialise = { s with
      bus := .initFailed, setterAnswers := oks, calls := s.calls ++ [initCall s.params s.init]
      history := s.history ++ [.result none (.err .busInit)] } := by
  simp [State.initialise, State.nextSetterOk, State.afterSetter, State.record, h]

/-- Settles O27: the failing call is the turn's, and afterwards the turn is the fault or a caller's offer. -/
theorem failedInitialisationIsFinal : Obligations.FailedInitialisationIsFinal := by
  refine ⟨fun s t turns oks hb ht hagenda hok => ?_,
    fun s turns hb => ⟨fun t ht hagenda => ?_, fun i hagenda => ?_⟩⟩
  · calc step s
        _ = State.play { s with agenda := turns } t := step_of_agenda s t turns hagenda
        _ = .next (State.initialise { s with agenda := turns }) := State.play_closed_blockTurn _ t hb ht
        _ = _ := congrArg Host.Outcome.next (State.initialise_failure { s with agenda := turns } oks hok)
  · exact (step_of_agenda s t turns hagenda).trans (State.play_failed_blockTurn _ t hb ht)
  · exact offeredCommandsWait s i turns hagenda

end Sys2Proof.Machine
end
